-- ==== Sys2Proof/Word.lean ====
section
/-! DEFINITION. The CORE's number types (00_scope.md R8, R12): a Value of 15 bits, a cell word of 16 bits,
the number of a register, and a byte of a program image. All of them are unsigned. -/

namespace Sys2Proof

/-- A Value: "15-bit unsigned integer, the VM's only data unit" (R8, R12). -/
abbrev Value := BitVec 15

/-- An address: the index of a cell, 0 to 32767, always a Value (R12, R50). -/
abbrev Addr := Value

/-- The content of a cell: a 16-bit unsigned number (R8, R51). -/
abbrev Word := BitVec 16

/-- A byte of a program image. The CORE itself has no bytes (R55). -/
abbrev Byte := BitVec 8

/-- The number of a register, 0 to 7 (R21). -/
abbrev RegIdx := Fin 8

/-- The register file: 8 registers of one Value each (R21). -/
abbrev RegFile := Vector Value 8

end Sys2Proof
end

