-- ==== Sys2Proof/Config.lean ====
section
/-! DEFINITION. The parameters of the CORE (00_scope.md R7) and the two things its surroundings choose and the
spec leaves open: what memory holds where nothing has been loaded or written, and what a caller's hook does. -/

namespace Sys2Proof.Config

/-- `MEM_CELLS`: the number of memory cells (R7, R50). -/
abbrev memCells : Nat := 32768

/-- `MODULUS`: arithmetic wraps modulo this number (R7, R150). -/
abbrev modulus : Nat := 32768

/-- `REG_BASE`: the operand word of register 0 (R7, R22). -/
abbrev regBase : Nat := 32768

/-- `REG_TOP`: the operand word of register 7 (R7, R22). -/
abbrev regTop : Nat := 32775

/-- `NUM_OPCODES`: opcodes are 0 to 21 (R2, R7). -/
abbrev numOpcodes : Nat := 22

/-- `RESET_PC`: the entry point, which is not configurable (R7, R241). -/
abbrev resetPc : Addr := 0

/-- `IMAGE_FILL`, cell by cell: what a cell reads as that no image word, no hook and no `wmem` has given. The spec
leaves it OPEN and says a model "must not assume 0" (R69, D9), so this is a free value: it has no body, and whatever is
proved holds for every initial memory. Log 2. -/
opaque imageFill : Addr → Word

/-- What a caller-supplied callback leaves behind: exactly the state a hook may write (R219). Memory is given as the
list of cells to write, in order. There is no field for the streams or the hook table, since a hook "cannot change the
hook table, cannot consume input and cannot emit output". `halted` says that the callback left the status Halted. -/
structure HookEffect where
  cellWrites : List (Addr × Word)
  regs       : RegFile
  stack      : List Value
  pc         : Addr
  halted     : Bool
  deriving DecidableEq, Repr, Inhabited

/-- The callback with a given number: a pure function of what a hook may read (memory, registers, stack, pc; the status
is always Running when a hook is called, R220). The spec makes it a parameter supplied by the caller (R217, R219, U7),
so it has no body: nothing is assumed of it beyond its type. Arguments: number, memory contents, registers, stack (top
first), pc. Log 9. -/
opaque callback : Nat → (Addr → Word) → RegFile → List Value → Addr → HookEffect

end Sys2Proof.Config
end

