-- ==== Sys2Proof/Syntax.lean ====
section
/-! DEFINITION. The instruction set of the CORE: the operand classes (30_encoding.md R85), the roles of the operand
positions (R88), and one constructor for each of the 22 rows of spec/opcode_table.json (R2, R82). -/

namespace Sys2Proof

/-- An operand word, by the class R85 puts it in. An invalid word keeps its bits, because a fault reports the raw word
(R210) and because an invalid word is an error only when the instruction runs (R92, R116). -/
inductive Operand where
  /-- 0 to 32767: a literal, which denotes itself. -/
  | lit (v : Value)
  /-- 32768 to 32775: a reference to register `r`. -/
  | reg (r : RegIdx)
  /-- 32776 to 65535: invalid; `w` is the raw word. -/
  | invalid (w : Word)
  deriving DecidableEq, Repr

/-- The role of an operand position (R84, R88). -/
inductive Role where
  /-- Must be a register reference; checked with `reg`, never resolved (R87). -/
  | destination
  /-- A literal or a register reference; resolved with `val` (R86). -/
  | source
  deriving DecidableEq, Repr

/-- The instructions, in opcode order (R82). Operands stand in the order of their cells: a, b, c (R80). -/
inductive Instr where
  | halt
  | set (a b : Operand)
  | push (a : Operand)
  | pop (a : Operand)
  | eq (a b c : Operand)
  | gt (a b c : Operand)
  | jmp (a : Operand)
  | jt (a b : Operand)
  | jf (a b : Operand)
  | add (a b c : Operand)
  | mult (a b c : Operand)
  | mod (a b c : Operand)
  | and (a b c : Operand)
  | or (a b c : Operand)
  | not (a b : Operand)
  | rmem (a b : Operand)
  | wmem (a b : Operand)
  | call (a : Operand)
  | ret
  | out (a : Operand)
  /-- `in`; spelt `inp` because `in` is a word of Lean's own. -/
  | inp (a : Operand)
  | noop
  deriving DecidableEq, Repr

end Sys2Proof
end

