-- ==== Sys2Proof/WellFormed.lean ====
section
/-! DEFINITION. Well-formed instructions: those whose operand words are legal in their positions (30_encoding.md R87,
R88, R92). An instruction that is not well-formed can still stand in memory and be fetched; it then faults (R116). -/

namespace Sys2Proof

/-- A word that `val` accepts: a literal or a register reference (R86). -/
def Operand.isSource : Operand → Bool
  | .lit _ => true
  | .reg _ => true
  | .invalid _ => false

/-- A word that `reg` accepts: a register reference (R87). -/
def Operand.isDestination : Operand → Bool
  | .lit _ => false
  | .reg _ => true
  | .invalid _ => false

/-- An operand term that stands for a 16-bit word in the one way R85 gives: only words from 32776 up are invalid. -/
def Operand.isCanonical : Operand → Bool
  | .lit _ => true
  | .reg _ => true
  | .invalid w => 32776 ≤ w.toNat

/-- Each operand word is legal in its position. -/
def Instr.isWellFormed : Instr → Bool
  | .halt => true
  | .set a b => a.isDestination && b.isSource
  | .push a => a.isSource
  | .pop a => a.isDestination
  | .eq a b c => a.isDestination && b.isSource && c.isSource
  | .gt a b c => a.isDestination && b.isSource && c.isSource
  | .jmp a => a.isSource
  | .jt a b => a.isSource && b.isSource
  | .jf a b => a.isSource && b.isSource
  | .add a b c => a.isDestination && b.isSource && c.isSource
  | .mult a b c => a.isDestination && b.isSource && c.isSource
  | .mod a b c => a.isDestination && b.isSource && c.isSource
  | .and a b c => a.isDestination && b.isSource && c.isSource
  | .or a b c => a.isDestination && b.isSource && c.isSource
  | .not a b => a.isDestination && b.isSource
  | .rmem a b => a.isDestination && b.isSource
  | .wmem a b => a.isSource && b.isSource
  | .call a => a.isSource
  | .ret => true
  | .out a => a.isSource
  | .inp a => a.isDestination
  | .noop => true

end Sys2Proof
end

