-- ==== Sys2Proof/Decode.lean ====
section
/-! DEFINITION. The encoding of the instruction set (30_encoding.md R80 to R94): the decoder from cell words to an
instruction, total and rejecting by name, and the encoder back. Both are written from the tables of R82, R84 and R85. -/

namespace Sys2Proof

/-! ## Operand words (R85) -/

/-- The class of an operand word: bit 15 clear is a literal of 15 bits; 32768 to 32775 is register `r[2:0]`; the rest is
invalid (R85). -/
def decodeOperand (w : Word) : Operand :=
  if w.toNat < Config.regBase then .lit (w.setWidth 15)
  else if w.toNat ≤ Config.regTop then .reg (Fin.ofNat 8 (w.toNat - Config.regBase))
  else .invalid w

/-- The operand word of an operand. -/
def encodeOperand : Operand → Word
  | .lit v => v.setWidth 16
  | .reg r => BitVec.ofNat 16 (Config.regBase + r.val)
  | .invalid w => w

/-! ## The opcode table (R82 to R84) -/

/-- The opcode number of an instruction (R82). -/
def Instr.opcode : Instr → Word
  | .halt => 0
  | .set _ _ => 1
  | .push _ => 2
  | .pop _ => 3
  | .eq _ _ _ => 4
  | .gt _ _ _ => 5
  | .jmp _ => 6
  | .jt _ _ => 7
  | .jf _ _ => 8
  | .add _ _ _ => 9
  | .mult _ _ _ => 10
  | .mod _ _ _ => 11
  | .and _ _ _ => 12
  | .or _ _ _ => 13
  | .not _ _ => 14
  | .rmem _ _ => 15
  | .wmem _ _ => 16
  | .call _ => 17
  | .ret => 18
  | .out _ => 19
  | .inp _ => 20
  | .noop => 21

/-- The operands of an instruction in cell order, each with the role of its position (R84, R88). -/
def Instr.operands : Instr → List (Role × Operand)
  | .halt => []
  | .set a b => [(.destination, a), (.source, b)]
  | .push a => [(.source, a)]
  | .pop a => [(.destination, a)]
  | .eq a b c => [(.destination, a), (.source, b), (.source, c)]
  | .gt a b c => [(.destination, a), (.source, b), (.source, c)]
  | .jmp a => [(.source, a)]
  | .jt a b => [(.source, a), (.source, b)]
  | .jf a b => [(.source, a), (.source, b)]
  | .add a b c => [(.destination, a), (.source, b), (.source, c)]
  | .mult a b c => [(.destination, a), (.source, b), (.source, c)]
  | .mod a b c => [(.destination, a), (.source, b), (.source, c)]
  | .and a b c => [(.destination, a), (.source, b), (.source, c)]
  | .or a b c => [(.destination, a), (.source, b), (.source, c)]
  | .not a b => [(.destination, a), (.source, b)]
  | .rmem a b => [(.destination, a), (.source, b)]
  | .wmem a b => [(.source, a), (.source, b)]
  | .call a => [(.source, a)]
  | .ret => []
  | .out a => [(.source, a)]
  | .inp a => [(.destination, a)]
  | .noop => []

/-- The arity: how many operand cells follow the opcode cell (R83). -/
def Instr.arity (i : Instr) : Nat := i.operands.length

/-- Every operand term of the instruction stands for its word in the one way R85 gives. Every decoded instruction has
this form; a well-formed one has it too. -/
def Instr.isCanonical (i : Instr) : Bool := i.operands.all fun o => o.2.isCanonical

/-! ## Decoding -/

/-- Why a sequence of cell words is no instruction. -/
inductive DecodeError where
  /-- There is no opcode cell. Raised by `decode` on an empty list only; a fetch never gives one. Safe. -/
  | noOpcodeCell
  /-- The opcode word is not 0 to 21 (R81, R91). Raised by `decodeFrom`; the step turns it into UnknownOpcode. Safe. -/
  | unknownOpcode (w : Word)
  /-- Fewer operand words follow than the opcode's arity. Raised by `decodeFrom`; in a fetch this means that an operand
  cell would lie above cell 32767, and the step turns it into AddressOutOfRange (R26, R94). Safe. -/
  | missingOperandCell (w : Word)
  deriving DecidableEq, Repr

/-- Reads one operand word (formats S and D). -/
def oneOperand (op : Word) (mk : Operand → Instr) : List Word → Except DecodeError (Instr × List Word)
  | a :: rest => .ok (mk (decodeOperand a), rest)
  | _ => .error (.missingOperandCell op)

/-- Reads two operand words (formats DS and SS). -/
def twoOperands (op : Word) (mk : Operand → Operand → Instr) :
    List Word → Except DecodeError (Instr × List Word)
  | a :: b :: rest => .ok (mk (decodeOperand a) (decodeOperand b), rest)
  | _ => .error (.missingOperandCell op)

/-- Reads three operand words (format DSS). -/
def threeOperands (op : Word) (mk : Operand → Operand → Operand → Instr) :
    List Word → Except DecodeError (Instr × List Word)
  | a :: b :: c :: rest => .ok (mk (decodeOperand a) (decodeOperand b) (decodeOperand c), rest)
  | _ => .error (.missingOperandCell op)

/-- Decodes an opcode word and the cell words that follow it, giving the instruction and the words left over. The whole
16-bit word is compared (R81), and it alone decides the length (R83, R90). -/
def decodeFrom (op : Word) (rest : List Word) : Except DecodeError (Instr × List Word) :=
  match op.toNat with
  | 0 => .ok (.halt, rest)
  | 1 => twoOperands op .set rest
  | 2 => oneOperand op .push rest
  | 3 => oneOperand op .pop rest
  | 4 => threeOperands op .eq rest
  | 5 => threeOperands op .gt rest
  | 6 => oneOperand op .jmp rest
  | 7 => twoOperands op .jt rest
  | 8 => twoOperands op .jf rest
  | 9 => threeOperands op .add rest
  | 10 => threeOperands op .mult rest
  | 11 => threeOperands op .mod rest
  | 12 => threeOperands op .and rest
  | 13 => threeOperands op .or rest
  | 14 => twoOperands op .not rest
  | 15 => twoOperands op .rmem rest
  | 16 => twoOperands op .wmem rest
  | 17 => oneOperand op .call rest
  | 18 => .ok (.ret, rest)
  | 19 => oneOperand op .out rest
  | 20 => oneOperand op .inp rest
  | 21 => .ok (.noop, rest)
  | _ => .error (.unknownOpcode op)

/-- The decoder: from consecutive cell words to an instruction and the words after it. -/
def decode : List Word → Except DecodeError (Instr × List Word)
  | [] => .error .noOpcodeCell
  | op :: rest => decodeFrom op rest

/-! ## Encoding -/

/-- The cell words of an instruction: opcode cell, then operand cells in order (R80). -/
def encode (i : Instr) : List Word := i.opcode :: i.operands.map fun o => encodeOperand o.2

/-! ## Table words -/

/-- The `n` cell words of a number, bit 0 being the least significant bit of the first word. -/
def tableWords : Nat → Nat → List Word
  | 0, _ => []
  | n + 1, w => BitVec.ofNat 16 w :: tableWords n (w / 65536)

/-- The instruction the decoder reads from an opcode-table word of `nbits` bits, all higher bits 0. -/
def decodeTableWord (nbits w : Nat) : Option Instr :=
  match decode (tableWords 4 (w % 2 ^ nbits)) with
  | .ok (i, _) => some i
  | .error _ => none

end Sys2Proof
end

