-- ==== Sys2Proof/Machine/State.lean ====
section
/-! DEFINITION. The architectural state of the CORE (10_state.md R20) with the inputs of its run, as plain data; the
reasons a step can stop (60_exceptions.md R200, R210); the state after reset (R39, R240). -/

namespace Sys2Proof.Machine

/-- The execution status: "one of Running, Halted" (R28). -/
inductive Status where
  | running
  | halted
  deriving DecidableEq, Repr

/-- Memory: the cells whose content an image, a hook or a `wmem` has given, as pairs of address and cell word, addresses
strictly rising. Every other cell reads as the free value `Config.imageFill` (R69). The smallest thing an address names
is a 16-bit cell (R51, R54), so the pairs hold cells, not bytes (log 1). -/
abbrev Memory := List (Nat × Word)

/-- A number a hook script computes, as a cell word. -/
inductive HookExpr where
  | lit (w : Word)
  | reg (r : RegIdx)
  /-- The cell at the address given by the low 15 bits of `a`. -/
  | cell (a : HookExpr)
  | pc
  | add (x y : HookExpr)
  /-- 1 if equal, else 0. -/
  | same (x y : HookExpr)
  deriving DecidableEq, Repr

/-- One assignment of a hook script, in the way 95_test_vectors.md section 2.11 writes hooks (R219). -/
inductive HookAct where
  | setReg (r : RegIdx) (x : HookExpr)
  | setCell (a x : HookExpr)
  /-- The whole stack, top first. -/
  | setStack (xs : List HookExpr)
  | setPc (x : HookExpr)
  | setStatus (st : Status)
  /-- `act`, if `x` is not 0. -/
  | onlyIf (x : HookExpr) (act : HookAct)
  deriving DecidableEq, Repr

/-- The entry of a hook table: "a callback invoked with full mutable access to VM state" (R36, R219). It is plain data:
a script of assignments, or the number of a callback of the caller's whose function is `Config.callback` (log 9). -/
inductive Hook where
  | script (acts : List HookAct)
  | callback (n : Nat)
  deriving DecidableEq, Repr

/-- The state of the CORE: the six items of R20, and the two inputs of the run that a step reads, the input stream and
the hook table. The third input of a run, the initial memory, is `mem` before the first step. -/
structure State where
  /-- The register file `x[0]` to `x[7]` (R21). -/
  regs   : RegFile
  /-- The instruction pointer (R24). -/
  pc     : Addr
  /-- The execution status (R28). -/
  status : Status
  /-- The stack, top first (R31; log 5). -/
  stack  : List Value
  /-- Memory (R33). -/
  mem    : Memory
  /-- The output stream so far, oldest first (R34). -/
  output : List Value
  /-- The input characters delivered and not yet taken, next first (R35). -/
  input  : List Value
  /-- The hook table: address and entry; the first entry for an address counts (R36; log 11). -/
  hooks  : List (Addr × Hook)
  deriving DecidableEq, Repr

/-- The fatal errors of a step, each with its record (R200, R210): `p` the address of the opcode cell, `op` the opcode
word. All of them are safe: the spec's machine stops there too. -/
inductive Fault where
  /-- The word `op` in cell `p` is not 0 to 21. Raised by `fetch` (R203). Safe. -/
  | unknownOpcode (p : Addr) (op : Word)
  /-- `p + arity + 1 > 32767`. Raised by `fetch` and by `State.nextPc` in every meaning (R206). Safe. -/
  | addressOutOfRange (p : Addr) (op : Word)
  /-- Destination operand word `raw` is no register reference. Raised by `State.checkDestination` (R202). Safe. -/
  | invalidDestination (p : Addr) (op : Word) (raw : Word)
  /-- Source operand word `raw` is above 32775. Raised by `State.checkSource` (R201). Safe. -/
  | invalidOperand (p : Addr) (op : Word) (raw : Word)
  /-- `pop` on an empty stack. Raised by `execPop` (R204). Safe. -/
  | stackUnderflow (p : Addr) (op : Word)
  /-- `mod` with divisor 0. Raised by `execMod` (R207). Safe. -/
  | modByZero (p : Addr) (op : Word)
  /-- `rmem` of cell `addr` holding `w`, which is above 32767. Raised by `execRmem` (R208). Safe. -/
  | nonValueLoad (p : Addr) (op : Word) (addr : Addr) (w : Word)
  deriving DecidableEq, Repr

/-- The reasons for having no meaning for an instruction. -/
inductive Refusal where
  /-- The instruction has no meaning yet. Raised by a refused arm of `exec`; there is none, so nothing raises it. Safe. -/
  | notModelled (mnemonic : String)
  deriving DecidableEq, Repr

/-- The state when the dispatch loop takes its first step (R39, R240): registers, pc, status, stack and output as the
spec gives them; memory lists nothing, so every cell is `Config.imageFill` (log 2); hook table empty, the default; input
stream empty (log 4). -/
def State.reset : State where
  regs := Vector.replicate 8 0
  pc := Config.resetPc
  status := .running
  stack := []
  mem := []
  output := []
  input := []
  hooks := []

end Sys2Proof.Machine
end

