-- ==== Sys2Proof/Machine/Ops.lean ====
section
/-! DEFINITION. The named operations over memory, registers, pc, stack, status and streams (00_scope.md R9), the advance
of the pc (40_dispatch_loop.md R114, R115), and the fatal error, which is all that raising an exception is on this
machine (60_exceptions.md R209). -/

namespace Sys2Proof.Machine

/-- The outcome of an instruction or a step. -/
abbrev Result := Host.Outcome State Fault Refusal

/-! ## Memory (R53) -/

/-- The word listed for address `a`, if any. -/
def Memory.lookup : Memory → Nat → Option Word
  | [], _ => none
  | (k, w) :: rest, a => if k = a then some w else Memory.lookup rest a

/-- `MemRead(a, 1)`: the listed word, or the free value of a cell nothing has given (R53, R69). -/
def Memory.read (m : Memory) (a : Addr) : Word :=
  match Memory.lookup m a.toNat with
  | some w => w
  | none => Config.imageFill a

/-- Puts a word at address `a` into a list of rising addresses. -/
def Memory.insert : Memory → Nat → Word → Memory
  | [], a, w => [(a, w)]
  | (k, v) :: rest, a, w =>
    if a < k then (a, w) :: (k, v) :: rest
    else if a = k then (a, w) :: rest
    else (k, v) :: Memory.insert rest a w

/-- `MemWrite(a, 1, w)`: cell `a` becomes `w`, every other cell is unchanged (R53). -/
def Memory.write (m : Memory) (a : Addr) (w : Word) : Memory := Memory.insert m a.toNat w

/-- The canonical form of a memory: addresses strictly rising and below 32768. -/
abbrev Memory.wf (m : Memory) : Prop :=
  m.Pairwise (fun x y => x.1 < y.1) ∧ ∀ c ∈ m, c.1 < Config.memCells

/-- The words of up to `n` consecutive cells from address `a`, ending at the top of memory: cells above 32767 do not
exist and are not read (R26, R114). -/
def Memory.readUpTo (m : Memory) : Nat → Nat → List Word
  | _, 0 => []
  | a, n + 1 =>
    if a < Config.memCells then Memory.read m (BitVec.ofNat 15 a) :: Memory.readUpTo m (a + 1) n else []

/-! ## Registers, pc, status, stack, streams (R9) -/

/-- `x[r]` (R9). No register is hardwired (R21). -/
def State.reg (s : State) (r : RegIdx) : Value := s.regs[r]

/-- `x[r] <- v` (R9). -/
def State.setReg (s : State) (r : RegIdx) (v : Value) : State := { s with regs := s.regs.set r v }

/-- `pc <- t` (R9). -/
def State.setPc (s : State) (t : Addr) : State := { s with pc := t }

/-- `status <- st` (R9). -/
def State.setStatus (s : State) (st : Status) : State := { s with status := st }

/-- `push(v)` (R9, R31). The stack is unbounded (R32). -/
def State.push (s : State) (v : Value) : State := { s with stack := v :: s.stack }

/-- The stack becomes `vs`, top first: what is left after a `pop()`, and what a hook writes. -/
def State.setStack (s : State) (vs : List Value) : State := { s with stack := vs }

/-- `MemWrite(a, 1, w)` on the state (R9). -/
def State.store (s : State) (a : Addr) (w : Word) : State := { s with mem := Memory.write s.mem a w }

/-- `emit(v)`: the output stream grows by `v` (R34, R172). -/
def State.emit (s : State) (v : Value) : State := { s with output := s.output ++ [v] }

/-- The input stream becomes `vs`: what is left after `take()` (R173). -/
def State.setInput (s : State) (vs : List Value) : State := { s with input := vs }

/-- Characters arrive at the input port, behind those already waiting (R35, R173, R174). This is an event of the
surroundings, between two steps; no instruction does it. Log 8. -/
def State.deliver (s : State) (vs : List Value) : State := { s with input := s.input ++ vs }

/-- The state with another hook table. The caller sets the table before the run; no step does this (R36, R243). -/
def State.setHooks (s : State) (hs : List (Addr × Hook)) : State := { s with hooks := hs }

/-! ## Fatal errors -/

/-- Raising an exception: every error is fatal. Nothing is saved, no mode or status changes, control goes nowhere in the
machine, nothing is written, and there is no return (R119, R209, R211, R215). -/
def raise {α : Type} (f : Fault) : Except Fault α := .error f

/-- The outcome of a meaning: the state it ends in, or the fatal error it raised. -/
def conclude : Except Fault State → Result
  | .ok s => .next s
  | .error f => .fault f

/-- The address of the next sequential instruction, `p + n + 1`, for an instruction of arity `n` at `p = pc`. It must be
a cell of memory (R26, R114, R115). -/
def State.nextPc (s : State) (op : Word) (n : Nat) : Except Fault Addr :=
  if s.pc.toNat + n + 1 < Config.memCells then .ok (BitVec.ofNat 15 (s.pc.toNat + n + 1))
  else raise (.addressOutOfRange s.pc op)

end Sys2Proof.Machine
end

