-- ==== Sys2Proof/Machine/Operands.lean ====
section
/-! DEFINITION. Operand resolution and validation (30_encoding.md R86, R87), and the shapes the 22 instructions share:
address check, operand checks in the order a, b, c, then the instruction's own condition, and only then the writes
(40_dispatch_loop.md R116 to R119). -/

namespace Sys2Proof.Machine

/-- The Value a source operand stands for; none for an invalid word (R86). -/
def State.resolve (s : State) : Operand → Option Value
  | .lit v => some v
  | .reg r => some (s.reg r)
  | .invalid _ => none

/-- The register a destination operand names; none for a literal or an invalid word (R87). -/
def Operand.register : Operand → Option RegIdx
  | .lit _ => none
  | .reg r => some r
  | .invalid _ => none

/-- `val`: resolves a source operand, or raises InvalidOperand with the raw word (R86, R201). -/
def State.checkSource (s : State) (op : Word) (o : Operand) : Except Fault Value :=
  match s.resolve o with
  | some v => .ok v
  | none => raise (.invalidOperand s.pc op (encodeOperand o))

/-- `reg`: validates a destination operand, or raises InvalidDestination with the raw word (R87, R202). The register's
content is not read. -/
def State.checkDestination (s : State) (op : Word) (o : Operand) : Except Fault RegIdx :=
  match Operand.register o with
  | some r => .ok r
  | none => raise (.invalidDestination s.pc op (encodeOperand o))

/-- Format Z: `effect` works on the state with the pc advanced. -/
def runZ (op : Word) (s : State) (effect : State → Except Fault State) : Result := conclude do
  let next ← s.nextPc op 0
  effect (s.setPc next)

/-- Format S: `effect` gets the resolved Value of a and the state with the pc advanced. -/
def runS (op : Word) (a : Operand) (s : State) (effect : Value → State → Except Fault State) : Result := conclude do
  let next ← s.nextPc op 1
  let va ← s.checkSource op a
  effect va (s.setPc next)

/-- Format SS: as `runS`, with a and b. -/
def runSS (op : Word) (a b : Operand) (s : State) (effect : Value → Value → State → Except Fault State) : Result :=
  conclude do
    let next ← s.nextPc op 2
    let va ← s.checkSource op a
    let vb ← s.checkSource op b
    effect va vb (s.setPc next)

/-- Format D: `effect` gets the destination register and the state with the pc advanced. -/
def runD (op : Word) (a : Operand) (s : State) (effect : RegIdx → State → Except Fault State) : Result := conclude do
  let next ← s.nextPc op 1
  let d ← s.checkDestination op a
  effect d (s.setPc next)

/-- Format DS: register a receives `result`, computed from the resolved Value of b; every read comes before the write
(R118). -/
def runDS (op : Word) (a b : Operand) (s : State) (result : Value → Except Fault Value) : Result := conclude do
  let next ← s.nextPc op 2
  let d ← s.checkDestination op a
  let vb ← s.checkSource op b
  let v ← result vb
  .ok ((s.setPc next).setReg d v)

/-- Format DSS: as `runDS`, with b and c. -/
def runDSS (op : Word) (a b c : Operand) (s : State) (result : Value → Value → Except Fault Value) : Result :=
  conclude do
    let next ← s.nextPc op 3
    let d ← s.checkDestination op a
    let vb ← s.checkSource op b
    let vc ← s.checkSource op c
    let v ← result vb vc
    .ok ((s.setPc next).setReg d v)

/-- The instruction is an `in` that has passed its checks and finds no character (R171, R174). Such a step is Blocked. -/
def awaitsInput (i : Instr) (s : State) : Bool :=
  match i with
  | .inp (.reg _) => decide (s.pc.toNat + 2 < Config.memCells) && s.input.isEmpty
  | _ => false

end Sys2Proof.Machine
end

