-- ==== Sys2Proof/Machine/Arith.lean ====
section
/-! DEFINITION. The meanings of `add`, `mult`, `mod`, `and`, `or` and `not` (44_arithmetic_logic.md R150 to R156). Results
are computed exactly on numbers and then cut to 15 bits (R150). -/

namespace Sys2Proof.Machine

/-- The sum modulo 32768 (R151). -/
def sumValue (b c : Value) : Value := BitVec.ofNat 15 ((b.toNat + c.toNat) % Config.modulus)

/-- The product modulo 32768 (R152). -/
def productValue (b c : Value) : Value := BitVec.ofNat 15 ((b.toNat * c.toNat) % Config.modulus)

/-- The unsigned remainder, for a divisor that is not 0 (R153). -/
def remainderValue (b c : Value) : Value := BitVec.ofNat 15 (b.toNat % c.toNat)

/-- The bitwise and of 15 bits (R154). -/
def andValue (b c : Value) : Value := b &&& c

/-- The bitwise or of 15 bits (R155). -/
def orValue (b c : Value) : Value := b ||| c

/-- The 15-bit one's complement (R156). -/
def complementValue (b : Value) : Value := BitVec.ofNat 15 (32767 - b.toNat)

/-- `add a, b, c` (R151). -/
def execAdd (a b c : Operand) (s : State) : Result :=
  runDSS (Instr.add a b c).opcode a b c s fun vb vc => .ok (sumValue vb vc)

/-- `mult a, b, c` (R152). -/
def execMult (a b c : Operand) (s : State) : Result :=
  runDSS (Instr.mult a b c).opcode a b c s fun vb vc => .ok (productValue vb vc)

/-- `mod a, b, c`: ModByZero if c's Value is 0, after the operand checks (R153, R207). -/
def execMod (a b c : Operand) (s : State) : Result :=
  runDSS (Instr.mod a b c).opcode a b c s fun vb vc =>
    if vc.toNat = 0 then raise (.modByZero s.pc (Instr.mod a b c).opcode) else .ok (remainderValue vb vc)

/-- `and a, b, c` (R154). -/
def execAnd (a b c : Operand) (s : State) : Result :=
  runDSS (Instr.and a b c).opcode a b c s fun vb vc => .ok (andValue vb vc)

/-- `or a, b, c` (R155). -/
def execOr (a b c : Operand) (s : State) : Result :=
  runDSS (Instr.or a b c).opcode a b c s fun vb vc => .ok (orValue vb vc)

/-- `not a, b` (R156). -/
def execNot (a b : Operand) (s : State) : Result :=
  runDS (Instr.not a b).opcode a b s fun vb => .ok (complementValue vb)

end Sys2Proof.Machine
end

