-- ==== Sys2Proof/Machine/Flags.lean ====
section
/-! DEFINITION. The truth values of the comparisons. "The CORE has no flags, no condition codes and no predicate
registers" (10_state.md R27): `eq` and `gt` write 0 or 1 to a general register, and `jt` and `jf` test a Value against
zero. No instruction computes any other flag. -/

namespace Sys2Proof.Machine

/-- The Value of a truth: 1 or 0 (R27). -/
def truthValue (b : Bool) : Value := if b then 1 else 0

/-- The condition of `jt` and `jf`: any Value but 0 is true (R141, R142). -/
def valueIsTrue (v : Value) : Bool := v.toNat ≠ 0

/-- The result of `eq` (R135). -/
def equalValue (b c : Value) : Value := truthValue (b.toNat == c.toNat)

/-- The result of `gt`: strict, unsigned (R136). -/
def greaterValue (b c : Value) : Value := truthValue (decide (b.toNat > c.toNat))

end Sys2Proof.Machine
end

