-- ==== Sys2Proof/Machine/Compare.lean ====
section
/-! DEFINITION. The meanings of `eq` and `gt` (42_compare.md R135, R136). -/

namespace Sys2Proof.Machine

/-- `eq a, b, c`: register a receives 1 if the resolved Values are equal, else 0 (R135). -/
def execEq (a b c : Operand) (s : State) : Result :=
  runDSS (Instr.eq a b c).opcode a b c s fun vb vc => .ok (equalValue vb vc)

/-- `gt a, b, c`: register a receives 1 if b's Value is greater than c's, unsigned, else 0 (R136). -/
def execGt (a b c : Operand) (s : State) : Result :=
  runDSS (Instr.gt a b c).opcode a b c s fun vb vc => .ok (greaterValue vb vc)

end Sys2Proof.Machine
end

