-- ==== Sys2Proof/Machine/HaltNoop.lean ====
section
/-! DEFINITION. The meanings of `halt` and `noop` (48_halt_noop.md R180, R181). -/

namespace Sys2Proof.Machine

/-- `halt`: status becomes Halted; pc is left at `p + 1` (R180). -/
def execHalt (s : State) : Result :=
  runZ Instr.halt.opcode s fun t => .ok (t.setStatus .halted)

/-- `noop`: nothing but the advance of the pc (R181). -/
def execNoop (s : State) : Result :=
  runZ Instr.noop.opcode s fun t => .ok t

end Sys2Proof.Machine
end

