-- ==== Sys2Proof/Machine/Io.lean ====
section
/-! DEFINITION. The meanings of `out` and `in` (47_io.md R170 to R174). -/

namespace Sys2Proof.Machine

/-- `out a`: the output stream grows by a's Value, whatever it is; `out` never blocks (R170, R172). -/
def execOut (a : Operand) (s : State) : Result :=
  runS (Instr.out a).opcode a s fun va t => .ok (t.emit va)

/-- `in a`: register a receives the next input character, which is removed. With none waiting the instruction is Blocked
and changes nothing, the pc included: it is taken again when a character arrives (R171, R174; log 7). -/
def execIn (a : Operand) (s : State) : Result :=
  runD (Instr.inp a).opcode a s fun d t =>
    match t.input with
    | [] => .ok s
    | v :: rest => .ok ((t.setInput rest).setReg d v)

end Sys2Proof.Machine
end

