-- ==== Sys2Proof/Machine/Jumps.lean ====
section
/-! DEFINITION. The meanings of `jmp`, `jt` and `jf` (43_jumps.md R140 to R143). Every source operand is resolved whether
or not the jump is taken (40_dispatch_loop.md R117). -/

namespace Sys2Proof.Machine

/-- `jmp a`: pc becomes the resolved Value of a (R140). -/
def execJmp (a : Operand) (s : State) : Result :=
  runS (Instr.jmp a).opcode a s fun va t => .ok (t.setPc va)

/-- `jt a, b`: pc becomes b's Value if a's is not 0 (R141). -/
def execJt (a b : Operand) (s : State) : Result :=
  runSS (Instr.jt a b).opcode a b s fun va vb t => .ok (if valueIsTrue va then t.setPc vb else t)

/-- `jf a, b`: pc becomes b's Value if a's is 0 (R142). -/
def execJf (a b : Operand) (s : State) : Result :=
  runSS (Instr.jf a b).opcode a b s fun va vb t => .ok (if valueIsTrue va then t else t.setPc vb)

end Sys2Proof.Machine
end

