-- ==== Sys2Proof/Machine/MemAccess.lean ====
section
/-! DEFINITION. The meanings of `rmem` and `wmem` (45_memory_access.md R160, R161). The one addressing mode is the resolved
Value of an operand, which is always the address of a cell (20_memory.md R59, R71). -/

namespace Sys2Proof.Machine

/-- The cell word of a Value: bit 15 is 0 (R161). -/
def valueWord (v : Value) : Word := v.setWidth 16

/-- `rmem a, b`: register a receives the word of the cell at b's Value; NonValueLoad if the word is above 32767 (R160,
R208). -/
def execRmem (a b : Operand) (s : State) : Result :=
  runDS (Instr.rmem a b).opcode a b s fun addr =>
    let w := Memory.read s.mem addr
    if w.toNat ≤ 32767 then .ok (BitVec.ofNat 15 w.toNat)
    else raise (.nonValueLoad s.pc (Instr.rmem a b).opcode addr w)

/-- `wmem a, b`: the cell at a's Value receives b's Value; operand a is a source (R88, R161). -/
def execWmem (a b : Operand) (s : State) : Result :=
  runSS (Instr.wmem a b).opcode a b s fun addr v t => .ok (t.store addr (valueWord v))

end Sys2Proof.Machine
end

