-- ==== Sys2Proof/Machine/RegStack.lean ====
section
/-! DEFINITION. The meanings of `set`, `push` and `pop` (41_set_push_pop.md R130 to R132). -/

namespace Sys2Proof.Machine

/-- `set a, b`: register a receives the resolved Value of b (R130). -/
def execSet (a b : Operand) (s : State) : Result :=
  runDS (Instr.set a b).opcode a b s fun vb => .ok vb

/-- `push a`: the resolved Value of a goes on top of the stack (R131). -/
def execPush (a : Operand) (s : State) : Result :=
  runS (Instr.push a).opcode a s fun va t => .ok (t.push va)

/-- `pop a`: the top of the stack goes to register a; StackUnderflow on an empty stack, after the destination check
(R132, R204). -/
def execPop (a : Operand) (s : State) : Result :=
  runD (Instr.pop a).opcode a s fun d t =>
    match t.stack with
    | [] => raise (.stackUnderflow s.pc (Instr.pop a).opcode)
    | v :: rest => .ok ((t.setStack rest).setReg d v)

end Sys2Proof.Machine
end

