-- ==== Sys2Proof/Machine/Subroutine.lean ====
section
/-! DEFINITION. The meanings of `call` and `ret` (46_call_return.md R165 to R167). -/

namespace Sys2Proof.Machine

/-- `call a`: the target is resolved, then the advanced pc `p + 2` is pushed, then pc becomes the target (R118, R165). -/
def execCall (a : Operand) (s : State) : Result :=
  runS (Instr.call a).opcode a s fun target t => .ok ((t.push t.pc).setPc target)

/-- `ret`: pops into pc, or sets status Halted on an empty stack with pc left at `p + 1` (R166). -/
def execRet (s : State) : Result :=
  runZ Instr.ret.opcode s fun t =>
    match t.stack with
    | [] => .ok (t.setStatus .halted)
    | v :: rest => .ok ((t.setStack rest).setPc v)

end Sys2Proof.Machine
end

