-- ==== Sys2Proof/Machine/Hooks.lean ====
section
/-! DEFINITION. Phase 1 of the step: the instruction hook table (40_dispatch_loop.md R112; 60_exceptions.md R217 to R221).
A hook can change memory, registers, stack, pc and status; nothing here can touch the streams or the table (R219). -/

namespace Sys2Proof.Machine

/-- The entry of the table at an address: the first one with that key (R36, R218; log 11). -/
def hookAt : List (Addr × Hook) → Addr → Option Hook
  | [], _ => none
  | (k, h) :: rest, a => if k = a then some h else hookAt rest a

/-- The number a script expression computes in a state (log 10). -/
def HookExpr.eval (s : State) : HookExpr → Word
  | .lit w => w
  | .reg r => (s.reg r).setWidth 16
  | .cell a => Memory.read s.mem ((a.eval s).setWidth 15)
  | .pc => s.pc.setWidth 16
  | .add x y => x.eval s + y.eval s
  | .same x y => if x.eval s = y.eval s then 1 else 0

/-- One assignment of a script. A number written where a Value goes is cut to its low 15 bits, so that no hook can leave
the typed state (R219; log 10). -/
def HookAct.run (s : State) : HookAct → State
  | .setReg r x => s.setReg r ((x.eval s).setWidth 15)
  | .setCell a x => s.store ((a.eval s).setWidth 15) (x.eval s)
  | .setStack xs => s.setStack (xs.map fun x => (x.eval s).setWidth 15)
  | .setPc x => s.setPc ((x.eval s).setWidth 15)
  | .setStatus st => s.setStatus st
  | .onlyIf x act => if x.eval s = 0 then s else act.run s

/-- What a callback left, put into the state (R219). -/
def applyEffect (e : Config.HookEffect) (s : State) : State :=
  let t := e.cellWrites.foldl (fun u c => u.store c.1 c.2) s
  { t with
    regs := e.regs
    stack := e.stack
    pc := e.pc
    status := if e.halted then .halted else s.status }

/-- Invokes a hook: a script's assignments in order, or the caller's callback (R219). -/
def Hook.apply (h : Hook) (s : State) : State :=
  match h with
  | .script acts => acts.foldl HookAct.run s
  | .callback n => applyEffect (Config.callback n (Memory.read s.mem) s.regs s.stack s.pc) s

/-- Phase 1: the table is consulted once, with the pc the step began with (R112, R218). -/
def hookPhase (s : State) : State :=
  match hookAt s.hooks s.pc with
  | some h => h.apply s
  | none => s

end Sys2Proof.Machine
end

