-- ==== Sys2Proof/Machine/Loop.lean ====
section
/-! DEFINITION. The dispatch loop: the six phases of one step (40_dispatch_loop.md R110 to R120), its four outcomes
(00_scope.md R10), and the run (R121). -/

namespace Sys2Proof.Machine

/-- The outcome of one step of a Running machine, exactly as R10 lists them. `refused` is there because `exec` could
refuse; no instruction does. -/
inductive StepOutcome where
  /-- The step completed and status is still Running. -/
  | next (s : State)
  /-- The step completed and status is Halted: `s` is the final state. -/
  | halt (s : State)
  /-- A fatal error: the run is over and there is no final state. -/
  | fault (f : Fault)
  /-- The instruction is `in` and no character is available. -/
  | blocked
  | refused (r : Refusal)
  deriving DecidableEq, Repr

/-- Phases 2 and 3: fetches the opcode word at pc and the operand words after it from memory as it is now, and decodes
them (R113, R114, R64). Operand cells above 32767 do not exist (R26, R206). -/
def fetch (s : State) : Except Fault Instr :=
  match decodeFrom (Memory.read s.mem s.pc) (Memory.readUpTo s.mem (s.pc.toNat + 1) 3) with
  | .ok (i, _) => .ok i
  | .error .noOpcodeCell => raise (.unknownOpcode s.pc (Memory.read s.mem s.pc))
  | .error (.unknownOpcode w) => raise (.unknownOpcode s.pc w)
  | .error (.missingOperandCell w) => raise (.addressOutOfRange s.pc w)

/-- Phase 6: the state an instruction ends in is final if its status is Halted (R120). -/
def afterEffect : Result → StepOutcome
  | .next t => if t.status = .halted then .halt t else .next t
  | .fault f => .fault f
  | .refused r => .refused r

/-- One step of a Running machine (R111): hook, fetch, effect, end of step. A hook that leaves status Halted ends the step
before the fetch (R112, R220). A Blocked step keeps nothing, the hook's changes included (R119). -/
def stepOutcome (s : State) : StepOutcome :=
  let t := hookPhase s
  if t.status = .halted then .halt t
  else
    match fetch t with
    | .error f => .fault f
    | .ok i => if awaitsInput i t then .blocked else afterEffect (exec i t)

/-- The step as a state transition. A Halted machine takes no step and stays as it is (R110, R226; log 6); a Blocked step
leaves the state as it was (R119; log 7). -/
def takeStep (s : State) : Result :=
  match s.status with
  | .halted => .next s
  | .running =>
    match stepOutcome s with
    | .next t => .next t
    | .halt t => .next t
    | .fault f => .fault f
    | .blocked => .next s
    | .refused r => .refused r

/-- What a run has come to (R121): a final state, a fault, a wait for input in a state that is not final, or neither yet
after the steps allowed. -/
inductive RunResult where
  | halted (final : State)
  | faulted (f : Fault)
  | waiting (s : State)
  | unfinished (s : State)
  | refused (r : Refusal)
  deriving DecidableEq, Repr

/-- A run of at most `n` steps (R121). Nothing bounds a run of the machine itself. -/
def runSteps : Nat → State → RunResult
  | 0, s => if s.status = .halted then .halted s else .unfinished s
  | n + 1, s =>
    if s.status = .halted then .halted s
    else
      match stepOutcome s with
      | .next t => runSteps n t
      | .halt t => .halted t
      | .fault f => .faulted f
      | .blocked => .waiting s
      | .refused r => .refused r

/-! ## A table word placed where the step fetches -/

/-- Stores words at consecutive cells from address `a`, as far as there are cells. -/
def storeFrom (s : State) : Nat → List Word → State
  | _, [] => s
  | a, w :: ws =>
    if a < Config.memCells then storeFrom (s.store (BitVec.ofNat 15 a) w) (a + 1) ws else s

/-- The state whose next step runs the table word `w` of `nbits` bits: the word and zero words after it, four cells in
all, stand at pc; status is Running and no hook is bound to pc, since the step would otherwise not fetch there
(log 14). -/
def placeAtPc (s : State) (nbits w : Nat) : State :=
  let t := storeFrom s s.pc.toNat (tableWords 4 (w % 2 ^ nbits))
  { t with status := .running, hooks := t.hooks.filter fun e => e.1 ≠ t.pc }

end Sys2Proof.Machine
end

