-- ==== Sys2Proof/Machine/Step.lean ====
section
/-! DEFINITION. The step of the machine (40_dispatch_loop.md R111), and the state that runs a given opcode-table word
next. Both only call Machine/Loop.lean. -/

namespace Sys2Proof.Machine

/-- One step (R111). -/
def step (s : State) : Host.Outcome State Fault Refusal := takeStep s

/-- `s` with an instruction's bits stored where the next step fetches (log 14). -/
def State.withFetchWord (s : State) (nbits w : Nat) : State := placeAtPc s nbits w

end Sys2Proof.Machine
end

