-- ==== Sys2Proof/Machine/Loader.lean ====
section
/-! DEFINITION. The loader interface (20_memory.md R55, R66 to R70; 60_exceptions.md R205) and the boot sequence
(70_reset_and_hazards.md R240, R243): from the bytes of a program image to the state the dispatch loop starts in. -/

namespace Sys2Proof.Machine

/-- Why an image does not load. No step of the CORE raises one of these (R67, R205). -/
inductive LoadError where
  /-- The image has more than 32768 words (R67). Safe: no run starts. -/
  | programTooLarge
  /-- The image has an odd number of bytes (R70). Safe: no run starts. -/
  | oddLength
  deriving DecidableEq, Repr

/-- The words of an image, little-endian: word k is `B[2k] + 256 * B[2k+1]` (R55, R66). None for an odd length (R70). -/
def imageWords : List Byte → Option (List Word)
  | [] => some []
  | [_] => none
  | lo :: hi :: rest => (imageWords rest).map fun ws => BitVec.ofNat 16 (lo.toNat + 256 * hi.toNat) :: ws

/-- Words at consecutive addresses from `a` (R66). -/
def cellsFrom : Nat → List Word → Memory
  | _, [] => []
  | a, w :: ws => (a, w) :: cellsFrom (a + 1) ws

/-- `load`: the memory an image gives, word k in cell k, the other cells left open (R66, R69); or the loader's error
(R67, R70; log 17). -/
def load (image : List Byte) : Except LoadError Memory :=
  match imageWords image with
  | none => .error .oddLength
  | some ws => if ws.length ≤ Config.memCells then .ok (cellsFrom 0 ws) else .error .programTooLarge

/-- The boot sequence: the loader fills memory, the caller sets up the hook table and the input, and the dispatch loop
starts from the reset state (R240, R243). -/
def boot (image : List Byte) (hooks : List (Addr × Hook)) (input : List Value) : Except LoadError State :=
  match load image with
  | .error e => .error e
  | .ok m => .ok { State.reset with mem := m, hooks := hooks, input := input }

end Sys2Proof.Machine
end

