-- ==== Sys2Proof/Safety.lean ====
section
/-! DEFINITION. The terms the claims are stated in: the invariant of the machine, what a safe run is, and what it means
that parts of two states agree. -/

namespace Sys2Proof.Machine

/-- The invariant: memory is in canonical form. What else R38 asks of a reachable state is in the types. -/
abbrev State.Inv (s : State) : Prop := Memory.wf s.mem

/-- A run of `n` steps from `s`, with no character arriving between them (log 8), meets no fatal error and ends in `t`
(R121). -/
def RunsTo (n : Nat) (s t : State) : Prop := Host.Core.run core n s = .next t

/-- A run from `s` never meets a fatal error (R200, R247). -/
def SafeRun (s : State) : Prop := ∀ n, ∃ t, RunsTo n s t

/-- The instruction and its successor address lie in memory: `p + n + 1 <= 32767` (R26, R94, R114). -/
abbrev Fits (i : Instr) (s : State) : Prop := s.pc.toNat + i.arity + 1 ≤ 32767

/-- Every cell reads the same in both states. -/
def SameMemory (s t : State) : Prop := ∀ a : Addr, Memory.read t.mem a = Memory.read s.mem a

/-- The two streams and the hook table, which no instruction but `in` and `out` touches. -/
def SameStreams (s t : State) : Prop := t.output = s.output ∧ t.input = s.input ∧ t.hooks = s.hooks

/-- The words of a list stand in consecutive cells from address `a`. -/
def WordsAt (s : State) (a : Nat) (ws : List Word) : Prop :=
  ∀ k, (h : k < ws.length) → a + k < 32768 ∧ Memory.read s.mem (BitVec.ofNat 15 (a + k)) = ws[k]

/-- The error of the first operand check that fails, in the order a, b, c: InvalidDestination in a destination position
whose word is no register reference, InvalidOperand in a source position whose word is above 32775 (R116, R201, R202). -/
def firstOperandFault (p : Addr) (op : Word) : List (Role × Operand) → Option Fault
  | [] => none
  | (.destination, o) :: rest =>
    if o.isDestination then firstOperandFault p op rest else some (.invalidDestination p op (encodeOperand o))
  | (.source, o) :: rest =>
    if o.isSource then firstOperandFault p op rest else some (.invalidOperand p op (encodeOperand o))

/-- The address a fault reports: that of the opcode cell of the failing instruction (R210). -/
def Fault.address : Fault → Addr
  | .unknownOpcode p _ => p
  | .addressOutOfRange p _ => p
  | .invalidDestination p _ _ => p
  | .invalidOperand p _ _ => p
  | .stackUnderflow p _ => p
  | .modByZero p _ => p
  | .nonValueLoad p _ _ _ => p

/-- The opcode word a fault reports (R210). -/
def Fault.opcodeWord : Fault → Word
  | .unknownOpcode _ op => op
  | .addressOutOfRange _ op => op
  | .invalidDestination _ op _ => op
  | .invalidOperand _ op _ => op
  | .stackUnderflow _ op => op
  | .modByZero _ op => op
  | .nonValueLoad _ op _ _ => op

/-- The instruction is a control transfer that overwrites the advanced pc in state `s` with `target` (R25, R123). -/
def Transfers (i : Instr) (s : State) (target : Addr) : Prop :=
  (∃ a, i = .jmp a ∧ s.resolve a = some target) ∨
  (∃ a b v, i = .jt a b ∧ s.resolve a = some v ∧ v ≠ 0 ∧ s.resolve b = some target) ∨
  (∃ a b, i = .jf a b ∧ s.resolve a = some 0 ∧ s.resolve b = some target) ∨
  (∃ a, i = .call a ∧ s.resolve a = some target) ∨
  (∃ rest, i = .ret ∧ s.stack = target :: rest)

/-- The rule of an instruction of format DSS that cannot fail once its operands are legal: register a receives the Value
that `R` relates to the Values of b and c, the pc advances by 4, nothing else changes; an illegal operand is the error of
the first check that fails. -/
def TwoSourceRule (mk : Operand → Operand → Operand → Instr) (op : Word) (R : Value → Value → Value → Prop) : Prop :=
  ∀ (s : State) (a b c : Operand), s.pc.toNat + 4 ≤ 32767 →
    (∀ d vb vc, a = .reg d → s.resolve b = some vb → s.resolve c = some vc →
      ∃ v, R vb vc v ∧
        exec (mk a b c) s = .next { s with regs := s.regs.set d v, pc := BitVec.ofNat 15 (s.pc.toNat + 4) }) ∧
    (∀ f, firstOperandFault s.pc op [(.destination, a), (.source, b), (.source, c)] = some f →
      exec (mk a b c) s = .fault f)

end Sys2Proof.Machine
end

