-- ==== Sys2Proof/Certificates/Slice0/Obligations.lean ====
section
/-! DEFINITION. The statements about the CORE, each from the numbered rules its docstring names. Nothing is proved here. -/

open Sys2Proof Sys2Proof.Machine

/-! ## Encoding -/

/-- R80, R82 to R85: decoding the words of an instruction gives it back, with every operand at every value, and leaves the
words behind it. It holds of every instruction whose operand terms are canonical, the well-formed ones among them. -/
def Obligations.DecodeOfEncodeGivesInstruction : Prop :=
  (∀ (i : Instr) (rest : List Word), i.isCanonical = true → decode (encode i ++ rest) = .ok (i, rest)) ∧
  (∀ i : Instr, i.isWellFormed = true → i.isCanonical = true)

/-- R81, R85, R89: no bit of an instruction's cells is ignored: what the decoder reads encodes to the very words it
read. -/
def Obligations.EncodeOfDecodeGivesWords : Prop :=
  ∀ (ws rest : List Word) (i : Instr), decode ws = .ok (i, rest) → encode i ++ rest = ws ∧ i.isCanonical = true

/-- R82, R83, R84: the opcode numbers, arities and operand order of the table under R82, row by row. -/
def Obligations.OpcodeTableDecodes : Prop :=
  ∀ (a b c : Word) (rest : List Word),
    decode (0 :: rest) = .ok (.halt, rest) ∧
    decode (1 :: a :: b :: rest) = .ok (.set (decodeOperand a) (decodeOperand b), rest) ∧
    decode (2 :: a :: rest) = .ok (.push (decodeOperand a), rest) ∧
    decode (3 :: a :: rest) = .ok (.pop (decodeOperand a), rest) ∧
    decode (4 :: a :: b :: c :: rest) = .ok (.eq (decodeOperand a) (decodeOperand b) (decodeOperand c), rest) ∧
    decode (5 :: a :: b :: c :: rest) = .ok (.gt (decodeOperand a) (decodeOperand b) (decodeOperand c), rest) ∧
    decode (6 :: a :: rest) = .ok (.jmp (decodeOperand a), rest) ∧
    decode (7 :: a :: b :: rest) = .ok (.jt (decodeOperand a) (decodeOperand b), rest) ∧
    decode (8 :: a :: b :: rest) = .ok (.jf (decodeOperand a) (decodeOperand b), rest) ∧
    decode (9 :: a :: b :: c :: rest) = .ok (.add (decodeOperand a) (decodeOperand b) (decodeOperand c), rest) ∧
    decode (10 :: a :: b :: c :: rest) = .ok (.mult (decodeOperand a) (decodeOperand b) (decodeOperand c), rest) ∧
    decode (11 :: a :: b :: c :: rest) = .ok (.mod (decodeOperand a) (decodeOperand b) (decodeOperand c), rest) ∧
    decode (12 :: a :: b :: c :: rest) = .ok (.and (decodeOperand a) (decodeOperand b) (decodeOperand c), rest) ∧
    decode (13 :: a :: b :: c :: rest) = .ok (.or (decodeOperand a) (decodeOperand b) (decodeOperand c), rest) ∧
    decode (14 :: a :: b :: rest) = .ok (.not (decodeOperand a) (decodeOperand b), rest) ∧
    decode (15 :: a :: b :: rest) = .ok (.rmem (decodeOperand a) (decodeOperand b), rest) ∧
    decode (16 :: a :: b :: rest) = .ok (.wmem (decodeOperand a) (decodeOperand b), rest) ∧
    decode (17 :: a :: rest) = .ok (.call (decodeOperand a), rest) ∧
    decode (18 :: rest) = .ok (.ret, rest) ∧
    decode (19 :: a :: rest) = .ok (.out (decodeOperand a), rest) ∧
    decode (20 :: a :: rest) = .ok (.inp (decodeOperand a), rest) ∧
    decode (21 :: rest) = .ok (.noop, rest)

/-- Words written out from R82 and R85, one for each format, decode to the instructions they stand for. -/
def Obligations.SampleWordsDecode : Prop :=
  decode [18] = .ok (.ret, []) ∧
  decode [2, 32769] = .ok (.push (.reg 1), []) ∧
  decode [20, 32775] = .ok (.inp (.reg 7), []) ∧
  decode [1, 32768, 4] = .ok (.set (.reg 0) (.lit 4), []) ∧
  decode [16, 600, 32769] = .ok (.wmem (.lit 600) (.reg 1), []) ∧
  decode [9, 32768, 32769, 32767] = .ok (.add (.reg 0) (.reg 1) (.lit 32767), [])

/-- R81, R91: the opcode cell is compared as a whole word; exactly the words above 21 are unknown opcodes. -/
def Obligations.OpcodeUnknownExactlyAboveTwentyOne : Prop :=
  ∀ (op : Word) (rest : List Word), decode (op :: rest) = .error (.unknownOpcode op) ↔ 21 < op.toNat

/-- R85: the three classes of operand words, by the number the word is. -/
def Obligations.OperandWordClasses : Prop :=
  ∀ w : Word,
    (w.toNat ≤ 32767 → ∃ v : Value, decodeOperand w = .lit v ∧ v.toNat = w.toNat) ∧
    (32768 ≤ w.toNat ∧ w.toNat ≤ 32775 → ∃ r : RegIdx, decodeOperand w = .reg r ∧ r.val = w.toNat - 32768) ∧
    (32776 ≤ w.toNat → decodeOperand w = .invalid w)

/-- R86: `val` of a raw word: the literal, the register's content, or InvalidOperand; never wrapped or clamped. -/
def Obligations.SourceOperandResolution : Prop :=
  ∀ (s : State) (op w : Word),
    (w.toNat ≤ 32767 → ∃ v : Value, s.checkSource op (decodeOperand w) = .ok v ∧ v.toNat = w.toNat) ∧
    (∀ r : RegIdx, w.toNat = 32768 + r.val → s.checkSource op (decodeOperand w) = .ok s.regs[r]) ∧
    (32776 ≤ w.toNat → s.checkSource op (decodeOperand w) = .error (.invalidOperand s.pc op w))

/-- R87: `reg` of a raw word: the register's number, or InvalidDestination for a literal and for a word of 32776 or more. -/
def Obligations.DestinationOperandValidation : Prop :=
  ∀ (s : State) (op w : Word),
    (∀ r : RegIdx, w.toNat = 32768 + r.val → s.checkDestination op (decodeOperand w) = .ok r) ∧
    (w.toNat ≤ 32767 ∨ 32776 ≤ w.toNat →
      s.checkDestination op (decodeOperand w) = .error (.invalidDestination s.pc op w))

/-! ## Reset and the loader -/

/-- R21, R24, R28, R31, R34, R36: registers, pc, status, stack, output and hook table at reset. -/
def Obligations.ResetState : Prop :=
  (∀ r : RegIdx, State.reset.regs[r] = 0) ∧ State.reset.pc = 0 ∧ State.reset.status = .running ∧
  State.reset.stack = [] ∧ State.reset.output = [] ∧ State.reset.hooks = []

/-- R39, R66, R240: the state in which a loaded image starts to run. Cell k holds image word k, little-endian; the cells
the image does not cover hold `IMAGE_FILL`, of which nothing is assumed. -/
def Obligations.BootState : Prop :=
  ∀ (image : List Byte) (hooks : List (Addr × Hook)) (input : List Value) (s : State),
    boot image hooks input = .ok s →
    (∀ r : RegIdx, s.regs[r] = 0) ∧ s.pc = 0 ∧ s.status = .running ∧ s.stack = [] ∧ s.output = [] ∧
    s.input = input ∧ s.hooks = hooks ∧
    (∀ k, (h : 2 * k + 1 < image.length) →
      (Memory.read s.mem (BitVec.ofNat 15 k)).toNat = image[2 * k].toNat + 256 * image[2 * k + 1].toNat) ∧
    (∀ k, image.length ≤ 2 * k → k < 32768 →
      Memory.read s.mem (BitVec.ofNat 15 k) = Config.imageFill (BitVec.ofNat 15 k))

/-- R67, R70: which images load. That an image both odd and too large is called odd is the model's choice (log 17). -/
def Obligations.LoaderAcceptsAndRefuses : Prop :=
  ∀ (image : List Byte) (hooks : List (Addr × Hook)) (input : List Value),
    (image.length % 2 = 1 → boot image hooks input = .error .oddLength) ∧
    (image.length % 2 = 0 → 65536 < image.length → boot image hooks input = .error .programTooLarge) ∧
    (image.length % 2 = 0 → image.length ≤ 65536 → ∃ s, boot image hooks input = .ok s ∧ s.Inv)

/-- The reset state meets the invariant. -/
def Obligations.ResetMeetsInvariant : Prop := State.reset.Inv

/-! ## The step -/

/-- R39, R53: every step keeps memory in canonical form, whatever the hooks do. -/
def Obligations.StepKeepsInvariant : Prop :=
  ∀ s t : State, s.Inv → step s = .next t → t.Inv

/-- R34, R35, R36, R38, R173: over a run of any length in which no character arrives the output only grows, input is only
taken from the front, the hook table never changes, and memory stays canonical. That no character arrives is in `RunsTo`,
which has no `State.deliver` between its steps: the model's choice (log 8). -/
def Obligations.RunKeepsStreamsAndHookTable : Prop :=
  ∀ (n : Nat) (s t : State), RunsTo n s t →
    (∃ out, t.output = s.output ++ out) ∧ (∃ taken, s.input = taken ++ t.input) ∧ t.hooks = s.hooks ∧
    (s.Inv → t.Inv)

/-- R111, R113, R114, R120: with no hook at pc, when the words at pc are those of an instruction that lies in memory, the
step is that instruction's `exec`; only an `in` that finds no character is Blocked instead. The pc advance is part of
`exec` (log 13). -/
def Obligations.StepRunsDecodedInstruction : Prop :=
  ∀ (s : State) (i : Instr), s.status = .running → hookAt s.hooks s.pc = none → i.isCanonical = true → Fits i s →
    WordsAt s s.pc.toNat (encode i) →
    (awaitsInput i s = false → step s = exec i s) ∧ (awaitsInput i s = true → step s = .next s)

/-- R113, R203: a word above 21 at pc is UnknownOpcode, at any address, before anything else is looked at. -/
def Obligations.UnknownOpcodeFaults : Prop :=
  ∀ s : State, s.status = .running → hookAt s.hooks s.pc = none → 21 < (Memory.read s.mem s.pc).toNat →
    step s = .fault (.unknownOpcode s.pc (Memory.read s.mem s.pc))

/-- R26, R94, R206: an instruction that ends at or above the last cell is AddressOutOfRange, in the step, whatever its
operand words, and in `exec`. -/
def Obligations.TopOfMemoryFaults : Prop :=
  ∀ (s : State) (i : Instr), 32767 < s.pc.toNat + i.arity + 1 →
    exec i s = .fault (.addressOutOfRange s.pc i.opcode) ∧
    (s.status = .running → hookAt s.hooks s.pc = none → Memory.read s.mem s.pc = i.opcode →
      step s = .fault (.addressOutOfRange s.pc i.opcode))

/-- R2, R216: no instruction is refused, in any state; nor is any step. -/
def Obligations.NothingIsRefused : Prop :=
  ∀ (s : State) (r : Refusal), step s ≠ .refused r ∧ ∀ i : Instr, exec i s ≠ .refused r

/-- R10, R120: a step that completes is `Next` if status is still Running and `Halt` if it is Halted; `step` answers the
state of either, the fault of a `Fault`, and in a `Blocked` step the state it began in (log 7). -/
def Obligations.StepOutcomeTellsTheEnd : Prop :=
  ∀ s : State, s.status = .running →
    (∀ t, stepOutcome s = .next t ↔ stepOutcome s ≠ .blocked ∧ step s = .next t ∧ t.status = .running) ∧
    (∀ t, stepOutcome s = .halt t ↔ stepOutcome s ≠ .blocked ∧ step s = .next t ∧ t.status = .halted) ∧
    (∀ f, stepOutcome s = .fault f ↔ step s = .fault f) ∧
    (stepOutcome s = .blocked → step s = .next s)

/-- R226: a Halted machine stays as it is. That its step answers the same state is the model's choice (log 6). -/
def Obligations.HaltedMachineStays : Prop :=
  ∀ (n : Nat) (s : State), s.status = .halted → RunsTo n s s

/-! ## Hooks. A hook is an entry of the table as plain data: a script, or a callback of the caller's (log 9). -/

/-- R112, R218, R220: the hook phase comes first; if it leaves status Halted the step ends there, and otherwise the
instruction fetched at the pc it left runs, with no second look at the table. -/
def Obligations.HookRunsOnceBeforeFetch : Prop :=
  ∀ (s : State) (h : Hook), s.status = .running → hookAt s.hooks s.pc = some h →
    ((h.apply s).status = .halted → step s = .next (h.apply s)) ∧
    (∀ i, (h.apply s).status = .running → fetch (h.apply s) = .ok i → awaitsInput i (h.apply s) = false →
      step s = exec i (h.apply s)) ∧
    (∀ f, (h.apply s).status = .running → fetch (h.apply s) = .error f → step s = .fault f)

/-- R219: whatever a hook does, it cannot change the table, take input or emit output, and it leaves memory canonical. -/
def Obligations.HookTouchesOnlyMachineState : Prop :=
  ∀ (h : Hook) (s : State), SameStreams s (h.apply s) ∧ (s.Inv → (h.apply s).Inv)

/-- R218: only an entry keyed by the pc the step begins with matters: with none there, the step is the same under the
empty table. -/
def Obligations.HooksElsewhereHaveNoEffect : Prop :=
  ∀ s : State, hookAt s.hooks s.pc = none →
    (∀ t, step s = .next t → step (s.setHooks []) = .next (t.setHooks [])) ∧
    (∀ f, step s = .fault f → step (s.setHooks []) = .fault f)

/-- R221: a hook at 10 that writes `jmp 20` to cells 10 and 11, and any word to cell 12, makes the step end at 20,
whatever stood in cell 10. -/
def Obligations.HookSplicesJump : Prop :=
  ∀ (s : State) (w : Word), s.status = .running → s.pc = 10 →
    hookAt s.hooks 10 = some (.script [.setCell (.lit 10) (.lit 6), .setCell (.lit 11) (.lit 20), .setCell (.lit 12) (.lit w)]) →
    ∃ t, step s = .next t ∧ t.pc = 20 ∧ t.status = .running ∧ t.regs = s.regs ∧ t.stack = s.stack ∧
      SameStreams s t ∧
      (∀ a : Addr, Memory.read t.mem a =
        if a = 10 then 6 else if a = 11 then 20 else if a = 12 then w else Memory.read s.mem a)

/-! ## Register moves and the stack -/

/-- R130: `set`. -/
def Obligations.SetCopiesResolvedValue : Prop :=
  ∀ (s : State) (a b : Operand), s.pc.toNat + 3 ≤ 32767 →
    (∀ d v, a = .reg d → s.resolve b = some v →
      exec (.set a b) s = .next { s with regs := s.regs.set d v, pc := BitVec.ofNat 15 (s.pc.toNat + 3) }) ∧
    (∀ f, firstOperandFault s.pc 1 [(.destination, a), (.source, b)] = some f → exec (.set a b) s = .fault f)

/-- R131: `push`. -/
def Obligations.PushPutsValueOnTop : Prop :=
  ∀ (s : State) (a : Operand), s.pc.toNat + 2 ≤ 32767 →
    (∀ v, s.resolve a = some v →
      exec (.push a) s = .next { s with stack := v :: s.stack, pc := BitVec.ofNat 15 (s.pc.toNat + 2) }) ∧
    (∀ f, firstOperandFault s.pc 2 [(.source, a)] = some f → exec (.push a) s = .fault f)

/-- R132: `pop`, with the destination checked before the stack. -/
def Obligations.PopMovesTopToRegister : Prop :=
  ∀ (s : State) (a : Operand), s.pc.toNat + 2 ≤ 32767 →
    (∀ d v rest, a = .reg d → s.stack = v :: rest →
      exec (.pop a) s =
        .next { s with regs := s.regs.set d v, stack := rest, pc := BitVec.ofNat 15 (s.pc.toNat + 2) }) ∧
    (∀ d, a = .reg d → s.stack = [] → exec (.pop a) s = .fault (.stackUnderflow s.pc 3)) ∧
    (∀ f, firstOperandFault s.pc 3 [(.destination, a)] = some f → exec (.pop a) s = .fault f)

/-- R132, corner case: `push R[i]` then `pop R[j]` copies register i to register j and leaves the stack as it was. -/
def Obligations.PushThenPopCopiesRegister : Prop :=
  ∀ (s : State) (i j : RegIdx), s.pc.toNat + 4 ≤ 32767 →
    ∃ t, exec (.push (.reg i)) s = .next t ∧
      exec (.pop (.reg j)) t =
        .next { s with regs := s.regs.set j s.regs[i], pc := BitVec.ofNat 15 (s.pc.toNat + 4) }

/-! ## Comparison -/

/-- R135: `eq`. -/
def Obligations.EqWritesOneIfEqual : Prop :=
  TwoSourceRule .eq 4 fun vb vc v => (vb = vc → v.toNat = 1) ∧ (vb ≠ vc → v.toNat = 0)

/-- R136: `gt`, strict and unsigned. -/
def Obligations.GtWritesOneIfGreaterUnsigned : Prop :=
  TwoSourceRule .gt 5 fun vb vc v => (vc.toNat < vb.toNat → v.toNat = 1) ∧ (vb.toNat ≤ vc.toNat → v.toNat = 0)

/-! ## Jumps -/

/-- R140: `jmp`. -/
def Obligations.JmpSetsPc : Prop :=
  ∀ (s : State) (a : Operand), s.pc.toNat + 2 ≤ 32767 →
    (∀ target, s.resolve a = some target → exec (.jmp a) s = .next { s with pc := target }) ∧
    (∀ f, firstOperandFault s.pc 6 [(.source, a)] = some f → exec (.jmp a) s = .fault f)

/-- R141: `jt`; the target is resolved, and faults, whether or not the jump is taken (R117). -/
def Obligations.JtJumpsIfNotZero : Prop :=
  ∀ (s : State) (a b : Operand), s.pc.toNat + 3 ≤ 32767 →
    (∀ v target, s.resolve a = some v → s.resolve b = some target → v.toNat ≠ 0 →
      exec (.jt a b) s = .next { s with pc := target }) ∧
    (∀ v target, s.resolve a = some v → s.resolve b = some target → v.toNat = 0 →
      exec (.jt a b) s = .next { s with pc := BitVec.ofNat 15 (s.pc.toNat + 3) }) ∧
    (∀ f, firstOperandFault s.pc 7 [(.source, a), (.source, b)] = some f → exec (.jt a b) s = .fault f)

/-- R142: `jf`; the target is resolved, and faults, whether or not the jump is taken (R117). -/
def Obligations.JfJumpsIfZero : Prop :=
  ∀ (s : State) (a b : Operand), s.pc.toNat + 3 ≤ 32767 →
    (∀ v target, s.resolve a = some v → s.resolve b = some target → v.toNat = 0 →
      exec (.jf a b) s = .next { s with pc := target }) ∧
    (∀ v target, s.resolve a = some v → s.resolve b = some target → v.toNat ≠ 0 →
      exec (.jf a b) s = .next { s with pc := BitVec.ofNat 15 (s.pc.toNat + 3) }) ∧
    (∀ f, firstOperandFault s.pc 8 [(.source, a), (.source, b)] = some f → exec (.jf a b) s = .fault f)

/-! ## Arithmetic and logic -/

/-- R151: `add`. -/
def Obligations.AddWritesSumModulo32768 : Prop :=
  TwoSourceRule .add 9 fun vb vc v => v.toNat = (vb.toNat + vc.toNat) % 32768

/-- R152: `mult`. -/
def Obligations.MultWritesProductModulo32768 : Prop :=
  TwoSourceRule .mult 10 fun vb vc v => v.toNat = (vb.toNat * vc.toNat) % 32768

/-- R153: `mod`, and ModByZero after the operand checks. -/
def Obligations.ModWritesRemainder : Prop :=
  ∀ (s : State) (a b c : Operand), s.pc.toNat + 4 ≤ 32767 →
    (∀ d vb vc, a = .reg d → s.resolve b = some vb → s.resolve c = some vc → vc.toNat ≠ 0 →
      ∃ v : Value, v.toNat = vb.toNat % vc.toNat ∧
        exec (.mod a b c) s = .next { s with regs := s.regs.set d v, pc := BitVec.ofNat 15 (s.pc.toNat + 4) }) ∧
    (∀ d vb vc, a = .reg d → s.resolve b = some vb → s.resolve c = some vc → vc.toNat = 0 →
      exec (.mod a b c) s = .fault (.modByZero s.pc 11)) ∧
    (∀ f, firstOperandFault s.pc 11 [(.destination, a), (.source, b), (.source, c)] = some f →
      exec (.mod a b c) s = .fault f)

/-- R154: `and`, bit by bit. -/
def Obligations.AndWritesBitwiseAnd : Prop :=
  TwoSourceRule .and 12 fun vb vc v => ∀ k : Nat, k < 15 → v.getLsbD k = (vb.getLsbD k && vc.getLsbD k)

/-- R155: `or`, bit by bit. -/
def Obligations.OrWritesBitwiseOr : Prop :=
  TwoSourceRule .or 13 fun vb vc v => ∀ k : Nat, k < 15 → v.getLsbD k = (vb.getLsbD k || vc.getLsbD k)

/-- R156: `not`, which is 32767 minus the Value and inverts each of its 15 bits. -/
def Obligations.NotWritesComplement : Prop :=
  ∀ (s : State) (a b : Operand), s.pc.toNat + 3 ≤ 32767 →
    (∀ d vb, a = .reg d → s.resolve b = some vb →
      ∃ v : Value, v.toNat = 32767 - vb.toNat ∧ (∀ k : Nat, k < 15 → v.getLsbD k = !vb.getLsbD k) ∧
        exec (.not a b) s = .next { s with regs := s.regs.set d v, pc := BitVec.ofNat 15 (s.pc.toNat + 3) }) ∧
    (∀ f, firstOperandFault s.pc 14 [(.destination, a), (.source, b)] = some f → exec (.not a b) s = .fault f)

/-- R156, corner case: `not` twice gives back the Value. -/
def Obligations.NotTwiceRestores : Prop :=
  ∀ (s : State) (d : RegIdx) (b : Operand) (v : Value), s.pc.toNat + 6 ≤ 32767 → s.resolve b = some v →
    ∃ t u, exec (.not (.reg d) b) s = .next t ∧ exec (.not (.reg d) (.reg d)) t = .next u ∧ u.regs[d] = v

/-- R150 (g): `add` and `mult` give the same with their sources exchanged. -/
def Obligations.AddAndMultCommute : Prop :=
  ∀ (s : State) (a b c : Operand), b.isSource = true → c.isSource = true →
    exec (.add a b c) s = exec (.add a c b) s ∧ exec (.mult a b c) s = exec (.mult a c b) s

/-! ## Memory access -/

/-- R160: `rmem`, and NonValueLoad for a cell above 32767. -/
def Obligations.RmemReadsCell : Prop :=
  ∀ (s : State) (a b : Operand), s.pc.toNat + 3 ≤ 32767 →
    (∀ d addr, a = .reg d → s.resolve b = some addr → (Memory.read s.mem addr).toNat ≤ 32767 →
      ∃ v : Value, v.toNat = (Memory.read s.mem addr).toNat ∧
        exec (.rmem a b) s = .next { s with regs := s.regs.set d v, pc := BitVec.ofNat 15 (s.pc.toNat + 3) }) ∧
    (∀ d addr, a = .reg d → s.resolve b = some addr → 32767 < (Memory.read s.mem addr).toNat →
      exec (.rmem a b) s = .fault (.nonValueLoad s.pc 15 addr (Memory.read s.mem addr))) ∧
    (∀ f, firstOperandFault s.pc 15 [(.destination, a), (.source, b)] = some f → exec (.rmem a b) s = .fault f)

/-- R161: `wmem`: the cell at a's Value receives b's Value and every other cell reads as before; nothing else changes but
the pc. -/
def Obligations.WmemStoresValue : Prop :=
  ∀ (s : State) (a b : Operand), s.pc.toNat + 3 ≤ 32767 →
    (∀ addr v, s.resolve a = some addr → s.resolve b = some v →
      ∃ m : Memory, (Memory.read m addr).toNat = v.toNat ∧ (∀ x, x ≠ addr → Memory.read m x = Memory.read s.mem x) ∧
        (Memory.wf s.mem → Memory.wf m) ∧
        exec (.wmem a b) s = .next { s with mem := m, pc := BitVec.ofNat 15 (s.pc.toNat + 3) }) ∧
    (∀ f, firstOperandFault s.pc 16 [(.source, a), (.source, b)] = some f → exec (.wmem a b) s = .fault f)

/-- R64, R246: any Value that `wmem` stores where the next step fetches is the opcode that step reads: above 21 it is an
unknown opcode; up to 21 the fetch gives an instruction with that opcode, which runs, or does not fit below the top of
memory. So 0 halts there and 21 is a `noop`. -/
def Obligations.StoreIsSeenByNextFetch : Prop :=
  ∀ (s t : State) (a b : Operand) (v : Value), exec (.wmem a b) s = .next t → s.resolve a = some t.pc →
    s.resolve b = some v → t.status = .running → hookAt t.hooks t.pc = none →
    (21 < v.toNat → step t = .fault (.unknownOpcode t.pc (v.setWidth 16))) ∧
    (v.toNat ≤ 21 → ∃ i : Instr, i.opcode = v.setWidth 16 ∧
      (Fits i t → fetch t = .ok i ∧ (awaitsInput i t = false → step t = exec i t)) ∧
      (¬ Fits i t → step t = .fault (.addressOutOfRange t.pc (v.setWidth 16)))) ∧
    (v = 0 → t.pc.toNat + 1 ≤ 32767 →
      step t = .next { t with status := .halted, pc := BitVec.ofNat 15 (t.pc.toNat + 1) }) ∧
    (v = 21 → t.pc.toNat + 1 ≤ 32767 → step t = .next { t with pc := BitVec.ofNat 15 (t.pc.toNat + 1) })

/-! ## Subroutines -/

/-- R165: `call`. -/
def Obligations.CallPushesReturnAddress : Prop :=
  ∀ (s : State) (a : Operand), s.pc.toNat + 2 ≤ 32767 →
    (∀ target, s.resolve a = some target →
      exec (.call a) s = .next { s with stack := BitVec.ofNat 15 (s.pc.toNat + 2) :: s.stack, pc := target }) ∧
    (∀ f, firstOperandFault s.pc 17 [(.source, a)] = some f → exec (.call a) s = .fault f)

/-- R166: `ret`, with a stack and without. -/
def Obligations.RetPopsOrHalts : Prop :=
  ∀ s : State, s.pc.toNat + 1 ≤ 32767 →
    (∀ v rest, s.stack = v :: rest → exec .ret s = .next { s with stack := rest, pc := v }) ∧
    (s.stack = [] → exec .ret s = .next { s with status := .halted, pc := BitVec.ofNat 15 (s.pc.toNat + 1) })

/-- R166: `call` and then `ret` at its target leave everything as it was, with pc behind the call's operand. -/
def Obligations.CallThenRetReturns : Prop :=
  ∀ (s : State) (a : Operand) (target : Value), s.pc.toNat + 2 ≤ 32767 → s.resolve a = some target →
    target.toNat + 1 ≤ 32767 →
    ∃ t, exec (.call a) s = .next t ∧ t.pc = target ∧
      exec .ret t = .next { s with pc := BitVec.ofNat 15 (s.pc.toNat + 2) }

/-! ## Input and output -/

/-- R170: `out`, for every Value. -/
def Obligations.OutAppendsValue : Prop :=
  ∀ (s : State) (a : Operand), s.pc.toNat + 2 ≤ 32767 →
    (∀ v, s.resolve a = some v →
      exec (.out a) s = .next { s with output := s.output ++ [v], pc := BitVec.ofNat 15 (s.pc.toNat + 2) }) ∧
    (∀ f, firstOperandFault s.pc 19 [(.source, a)] = some f → exec (.out a) s = .fault f)

/-- R171: `in` takes exactly the next character; with none available it waits; an invalid destination faults whether or
not there is input. What the step of a waiting `in` answers is in `BlockedStepChangesNothing`. -/
def Obligations.InTakesNextCharacter : Prop :=
  ∀ (s : State) (a : Operand), s.pc.toNat + 2 ≤ 32767 →
    (∀ d v rest, a = .reg d → s.input = v :: rest →
      exec (.inp a) s =
        .next { s with regs := s.regs.set d v, input := rest, pc := BitVec.ofNat 15 (s.pc.toNat + 2) }) ∧
    (∀ d, a = .reg d → s.input = [] → awaitsInput (.inp a) s = true) ∧
    (∀ f, firstOperandFault s.pc 20 [(.destination, a)] = some f → exec (.inp a) s = .fault f)

/-- R119, R174: an `in` fetched with no input waiting is Blocked, and the state is the one from before the step, any
change made by the hook phase discarded. That the model's step answers that state is its choice (log 7). -/
def Obligations.BlockedStepChangesNothing : Prop :=
  ∀ (s : State) (d : RegIdx), s.status = .running → (hookPhase s).status = .running →
    fetch (hookPhase s) = .ok (.inp (.reg d)) → (hookPhase s).pc.toNat + 2 ≤ 32767 → s.input = [] →
    stepOutcome s = .blocked ∧ step s = .next s

/-- R119, R174: when a character arrives the step completes as if it had never waited. Arrival is `State.deliver`, the
model's own event (log 8). -/
def Obligations.BlockedStepCompletesOnArrival : Prop :=
  ∀ (s : State) (d : RegIdx) (v : Value) (rest : List Value), s.status = .running →
    (hookPhase s).status = .running → fetch (hookPhase s) = .ok (.inp (.reg d)) →
    (hookPhase s).pc.toNat + 2 ≤ 32767 → s.input = [] →
    step (s.deliver (v :: rest)) =
      .next { hookPhase s with
        regs := (hookPhase s).regs.set d v
        input := rest
        pc := BitVec.ofNat 15 ((hookPhase s).pc.toNat + 2) }

/-! ## Halt and no-operation -/

/-- R180: `halt`. -/
def Obligations.HaltSetsHalted : Prop :=
  ∀ s : State, s.pc.toNat + 1 ≤ 32767 →
    exec .halt s = .next { s with status := .halted, pc := BitVec.ofNat 15 (s.pc.toNat + 1) }

/-- R181: `noop`. -/
def Obligations.NoopOnlyAdvances : Prop :=
  ∀ s : State, s.pc.toNat + 1 ≤ 32767 →
    exec .noop s = .next { s with pc := BitVec.ofNat 15 (s.pc.toNat + 1) }

/-! ## Frames and whole-machine rules -/

/-- R23: a register changes only as the destination of one of the twelve register-writing instructions. -/
def Obligations.RegistersChangeOnlyAsDestination : Prop :=
  ∀ (i : Instr) (s t : State) (r : RegIdx), exec i s = .next t → t.regs[r] ≠ s.regs[r] →
    (∃ b, i = .set (.reg r) b) ∨ i = .pop (.reg r) ∨ (∃ b c, i = .eq (.reg r) b c) ∨ (∃ b c, i = .gt (.reg r) b c) ∨
    (∃ b c, i = .add (.reg r) b c) ∨ (∃ b c, i = .mult (.reg r) b c) ∨ (∃ b c, i = .mod (.reg r) b c) ∨
    (∃ b c, i = .and (.reg r) b c) ∨ (∃ b c, i = .or (.reg r) b c) ∨ (∃ b, i = .not (.reg r) b) ∨
    (∃ b, i = .rmem (.reg r) b) ∨ i = .inp (.reg r)

/-- R38, R52, R161: the frame of memory. Only `wmem` changes a cell, only the one whose address its operand a resolves to,
and what that cell then holds is a Value. -/
def Obligations.MemoryChangesOnlyByWmem : Prop :=
  ∀ (i : Instr) (s t : State) (x : Addr), exec i s = .next t → Memory.read t.mem x ≠ Memory.read s.mem x →
    ∃ a b, i = .wmem a b ∧ s.resolve a = some x ∧ (Memory.read t.mem x).toNat ≤ 32767

/-- R31: the stack changes only by `push`, `pop`, `call` and `ret`, by one element. -/
def Obligations.StackChangesOnlyByStackInstructions : Prop :=
  ∀ (i : Instr) (s t : State), exec i s = .next t → t.stack ≠ s.stack →
    (∃ a v, i = .push a ∧ s.resolve a = some v ∧ t.stack = v :: s.stack) ∨
    (∃ a, i = .call a ∧ t.stack = BitVec.ofNat 15 (s.pc.toNat + 2) :: s.stack) ∨
    (∃ d, i = .pop (.reg d) ∧ s.stack = t.regs[d] :: t.stack) ∨
    (i = .ret ∧ s.stack = t.pc :: t.stack)

/-- R34, R36, R173: the frame of the streams and the hook table. Only `out` changes the output, by its one Value at the
end; only `in` changes the input, by taking the first character; nothing changes the table. -/
def Obligations.StreamsChangeOnlyByInAndOut : Prop :=
  ∀ (i : Instr) (s t : State), exec i s = .next t →
    (t.output = s.output ∨ ∃ a v, i = .out a ∧ s.resolve a = some v ∧ t.output = s.output ++ [v]) ∧
    (t.input = s.input ∨ ∃ d, i = .inp (.reg d) ∧ s.input = t.regs[d] :: t.input) ∧
    t.hooks = s.hooks

/-- R28, R213: among instructions only `halt` and `ret` on an empty stack change the status, and only to Halted. -/
def Obligations.StatusChangesOnlyByHaltOrEmptyRet : Prop :=
  ∀ (i : Instr) (s t : State), exec i s = .next t → t.status ≠ s.status →
    t.status = .halted ∧ (i = .halt ∨ i = .ret ∧ s.stack = [])

/-- R123: the advance law. -/
def Obligations.AdvanceLaw : Prop :=
  ∀ (i : Instr) (s t : State), exec i s = .next t → awaitsInput i s = false →
    (∃ target, Transfers i s target ∧ t.pc = target) ∨
    ((∀ target, ¬ Transfers i s target) ∧ t.pc.toNat = s.pc.toNat + i.arity + 1)

/-- R116, R119, R210, R212: exactly when an instruction faults, with which error of those that apply, and what the record
reports. -/
def Obligations.FaultsInPriorityOrder : Prop :=
  ∀ (i : Instr) (s : State) (f : Fault), exec i s = .fault f ↔
    (¬ Fits i s ∧ f = .addressOutOfRange s.pc i.opcode) ∨
    (Fits i s ∧ firstOperandFault s.pc i.opcode i.operands = some f) ∨
    (Fits i s ∧ firstOperandFault s.pc i.opcode i.operands = none ∧
      ((∃ a, i = .pop a ∧ s.stack = [] ∧ f = .stackUnderflow s.pc 3) ∨
       (∃ a b c, i = .mod a b c ∧ s.resolve c = some 0 ∧ f = .modByZero s.pc 11) ∨
       (∃ a b addr, i = .rmem a b ∧ s.resolve b = some addr ∧ 32767 < (Memory.read s.mem addr).toNat ∧
         f = .nonValueLoad s.pc 15 addr (Memory.read s.mem addr))))
end

