-- ==== Sys2Proof/Laws/Exec.lean ====
section
/-! SUPPORT. Each instruction as its format over its own effect: the form in which the lemmas about the formats apply. -/

namespace Sys2Proof.Machine

section
variable (a b c : Operand) (s : State)

theorem exec_halt : exec .halt s = runZ 0 s fun t => .ok (t.setStatus .halted) := rfl
theorem exec_set : exec (.set a b) s = runDS 1 a b s fun vb => .ok vb := rfl
theorem exec_push : exec (.push a) s = runS 2 a s fun va t => .ok (t.push va) := rfl
theorem exec_pop : exec (.pop a) s = runD 3 a s fun d t =>
    match t.stack with
    | [] => raise (.stackUnderflow s.pc 3)
    | v :: rest => .ok ((t.setStack rest).setReg d v) := rfl
theorem exec_eq : exec (.eq a b c) s = runDSS 4 a b c s fun vb vc => .ok (equalValue vb vc) := rfl
theorem exec_gt : exec (.gt a b c) s = runDSS 5 a b c s fun vb vc => .ok (greaterValue vb vc) := rfl
theorem exec_jmp : exec (.jmp a) s = runS 6 a s fun va t => .ok (t.setPc va) := rfl
theorem exec_jt : exec (.jt a b) s = runSS 7 a b s fun va vb t => .ok (if valueIsTrue va then t.setPc vb else t) := rfl
theorem exec_jf : exec (.jf a b) s = runSS 8 a b s fun va vb t => .ok (if valueIsTrue va then t else t.setPc vb) := rfl
theorem exec_add : exec (.add a b c) s = runDSS 9 a b c s fun vb vc => .ok (sumValue vb vc) := rfl
theorem exec_mult : exec (.mult a b c) s = runDSS 10 a b c s fun vb vc => .ok (productValue vb vc) := rfl
theorem exec_mod : exec (.mod a b c) s = runDSS 11 a b c s fun vb vc =>
    if vc.toNat = 0 then raise (.modByZero s.pc 11) else .ok (remainderValue vb vc) := rfl
theorem exec_and : exec (.and a b c) s = runDSS 12 a b c s fun vb vc => .ok (andValue vb vc) := rfl
theorem exec_or : exec (.or a b c) s = runDSS 13 a b c s fun vb vc => .ok (orValue vb vc) := rfl
theorem exec_not : exec (.not a b) s = runDS 14 a b s fun vb => .ok (complementValue vb) := rfl
theorem exec_rmem : exec (.rmem a b) s = runDS 15 a b s fun addr =>
    if (Memory.read s.mem addr).toNat ≤ 32767 then .ok (BitVec.ofNat 15 (Memory.read s.mem addr).toNat)
    else raise (.nonValueLoad s.pc 15 addr (Memory.read s.mem addr)) := rfl
theorem exec_wmem : exec (.wmem a b) s = runSS 16 a b s fun addr v t => .ok (t.store addr (valueWord v)) := rfl
theorem exec_call : exec (.call a) s = runS 17 a s fun target t => .ok ((t.push t.pc).setPc target) := rfl
theorem exec_ret : exec .ret s = runZ 18 s fun t =>
    match t.stack with
    | [] => .ok (t.setStatus .halted)
    | v :: rest => .ok ((t.setStack rest).setPc v) := rfl
theorem exec_out : exec (.out a) s = runS 19 a s fun va t => .ok (t.emit va) := rfl
theorem exec_in : exec (.inp a) s = runD 20 a s fun d t =>
    match t.input with
    | [] => .ok s
    | v :: rest => .ok ((t.setInput rest).setReg d v) := rfl
theorem exec_noop : exec .noop s = runZ 21 s fun t => .ok t := rfl

end

end Sys2Proof.Machine
end

