-- ==== Sys2Proof/Laws/State.lean ====
section
/-! SUPPORT. One lemma per field per update of State, and the reads of a register after a write. -/

namespace Sys2Proof.Machine

section
variable (s : State) (r : RegIdx) (v : Value) (t : Addr) (st : Status) (vs : List Value) (w : Word) (hs : List (Addr × Hook))

@[simp] theorem setReg_regs : (s.setReg r v).regs = s.regs.set r v := rfl
@[simp] theorem setReg_pc : (s.setReg r v).pc = s.pc := rfl
@[simp] theorem setReg_status : (s.setReg r v).status = s.status := rfl
@[simp] theorem setReg_stack : (s.setReg r v).stack = s.stack := rfl
@[simp] theorem setReg_mem : (s.setReg r v).mem = s.mem := rfl
@[simp] theorem setReg_output : (s.setReg r v).output = s.output := rfl
@[simp] theorem setReg_input : (s.setReg r v).input = s.input := rfl
@[simp] theorem setReg_hooks : (s.setReg r v).hooks = s.hooks := rfl

@[simp] theorem setPc_regs : (s.setPc t).regs = s.regs := rfl
@[simp] theorem setPc_pc : (s.setPc t).pc = t := rfl
@[simp] theorem setPc_status : (s.setPc t).status = s.status := rfl
@[simp] theorem setPc_stack : (s.setPc t).stack = s.stack := rfl
@[simp] theorem setPc_mem : (s.setPc t).mem = s.mem := rfl
@[simp] theorem setPc_output : (s.setPc t).output = s.output := rfl
@[simp] theorem setPc_input : (s.setPc t).input = s.input := rfl
@[simp] theorem setPc_hooks : (s.setPc t).hooks = s.hooks := rfl

@[simp] theorem setStatus_regs : (s.setStatus st).regs = s.regs := rfl
@[simp] theorem setStatus_pc : (s.setStatus st).pc = s.pc := rfl
@[simp] theorem setStatus_status : (s.setStatus st).status = st := rfl
@[simp] theorem setStatus_stack : (s.setStatus st).stack = s.stack := rfl
@[simp] theorem setStatus_mem : (s.setStatus st).mem = s.mem := rfl
@[simp] theorem setStatus_output : (s.setStatus st).output = s.output := rfl
@[simp] theorem setStatus_input : (s.setStatus st).input = s.input := rfl
@[simp] theorem setStatus_hooks : (s.setStatus st).hooks = s.hooks := rfl

@[simp] theorem push_regs : (s.push v).regs = s.regs := rfl
@[simp] theorem push_pc : (s.push v).pc = s.pc := rfl
@[simp] theorem push_status : (s.push v).status = s.status := rfl
@[simp] theorem push_stack : (s.push v).stack = v :: s.stack := rfl
@[simp] theorem push_mem : (s.push v).mem = s.mem := rfl
@[simp] theorem push_output : (s.push v).output = s.output := rfl
@[simp] theorem push_input : (s.push v).input = s.input := rfl
@[simp] theorem push_hooks : (s.push v).hooks = s.hooks := rfl

@[simp] theorem setHooks_regs : (s.setHooks hs).regs = s.regs := rfl
@[simp] theorem setHooks_pc : (s.setHooks hs).pc = s.pc := rfl
@[simp] theorem setHooks_status : (s.setHooks hs).status = s.status := rfl
@[simp] theorem setHooks_stack : (s.setHooks hs).stack = s.stack := rfl
@[simp] theorem setHooks_mem : (s.setHooks hs).mem = s.mem := rfl
@[simp] theorem setHooks_output : (s.setHooks hs).output = s.output := rfl
@[simp] theorem setHooks_input : (s.setHooks hs).input = s.input := rfl
@[simp] theorem setHooks_hooks : (s.setHooks hs).hooks = hs := rfl

@[simp] theorem setStack_regs : (s.setStack vs).regs = s.regs := rfl
@[simp] theorem setStack_pc : (s.setStack vs).pc = s.pc := rfl
@[simp] theorem setStack_status : (s.setStack vs).status = s.status := rfl
@[simp] theorem setStack_stack : (s.setStack vs).stack = vs := rfl
@[simp] theorem setStack_mem : (s.setStack vs).mem = s.mem := rfl
@[simp] theorem setStack_output : (s.setStack vs).output = s.output := rfl
@[simp] theorem setStack_input : (s.setStack vs).input = s.input := rfl
@[simp] theorem setStack_hooks : (s.setStack vs).hooks = s.hooks := rfl

@[simp] theorem store_regs : (s.store t w).regs = s.regs := rfl
@[simp] theorem store_pc : (s.store t w).pc = s.pc := rfl
@[simp] theorem store_status : (s.store t w).status = s.status := rfl
@[simp] theorem store_stack : (s.store t w).stack = s.stack := rfl
@[simp] theorem store_mem : (s.store t w).mem = Memory.write s.mem t w := rfl
@[simp] theorem store_output : (s.store t w).output = s.output := rfl
@[simp] theorem store_input : (s.store t w).input = s.input := rfl
@[simp] theorem store_hooks : (s.store t w).hooks = s.hooks := rfl

@[simp] theorem emit_regs : (s.emit v).regs = s.regs := rfl
@[simp] theorem emit_pc : (s.emit v).pc = s.pc := rfl
@[simp] theorem emit_status : (s.emit v).status = s.status := rfl
@[simp] theorem emit_stack : (s.emit v).stack = s.stack := rfl
@[simp] theorem emit_mem : (s.emit v).mem = s.mem := rfl
@[simp] theorem emit_output : (s.emit v).output = s.output ++ [v] := rfl
@[simp] theorem emit_input : (s.emit v).input = s.input := rfl
@[simp] theorem emit_hooks : (s.emit v).hooks = s.hooks := rfl

@[simp] theorem setInput_regs : (s.setInput vs).regs = s.regs := rfl
@[simp] theorem setInput_pc : (s.setInput vs).pc = s.pc := rfl
@[simp] theorem setInput_status : (s.setInput vs).status = s.status := rfl
@[simp] theorem setInput_stack : (s.setInput vs).stack = s.stack := rfl
@[simp] theorem setInput_mem : (s.setInput vs).mem = s.mem := rfl
@[simp] theorem setInput_output : (s.setInput vs).output = s.output := rfl
@[simp] theorem setInput_input : (s.setInput vs).input = vs := rfl
@[simp] theorem setInput_hooks : (s.setInput vs).hooks = s.hooks := rfl

@[simp] theorem deliver_regs : (s.deliver vs).regs = s.regs := rfl
@[simp] theorem deliver_pc : (s.deliver vs).pc = s.pc := rfl
@[simp] theorem deliver_status : (s.deliver vs).status = s.status := rfl
@[simp] theorem deliver_stack : (s.deliver vs).stack = s.stack := rfl
@[simp] theorem deliver_mem : (s.deliver vs).mem = s.mem := rfl
@[simp] theorem deliver_output : (s.deliver vs).output = s.output := rfl
@[simp] theorem deliver_input : (s.deliver vs).input = s.input ++ vs := rfl
@[simp] theorem deliver_hooks : (s.deliver vs).hooks = s.hooks := rfl

@[simp] theorem reg_setPc : (s.setPc t).reg r = s.reg r := rfl

/-- A register reads as what was last written to it. -/
@[simp] theorem reg_setReg_same : (s.setReg r v).reg r = v := by simp [State.reg]

/-- A write to a register leaves every other register alone. -/
theorem reg_setReg_other {r r' : RegIdx} (h : r' ≠ r) : (s.setReg r v).reg r' = s.reg r' := by
  have : r.val ≠ r'.val := fun e => h (Fin.ext e.symm)
  simp [State.reg, this]

end

end Sys2Proof.Machine
end

