-- ==== Sys2Proof/Laws/Operands.lean ====
section
/-! SUPPORT. For each shared operation of Machine/Ops.lean and Machine/Operands.lean, one lemma that says everything it can
answer, and for each format when it completes and what it then is. -/

namespace Sys2Proof.Machine

section
variable {s t : State} {op : Word} {o a b c : Operand}

@[simp] theorem conclude_ok : conclude (.ok s) = .next s := rfl

@[simp] theorem conclude_error (f : Fault) : conclude (.error f) = .fault f := rfl

@[simp] theorem conclude_eq_next {r : Except Fault State} : conclude r = .next t ↔ r = .ok t := by
  cases r <;> simp [conclude]

@[simp] theorem conclude_eq_fault {r : Except Fault State} {f : Fault} : conclude r = .fault f ↔ r = .error f := by
  cases r <;> simp [conclude]

@[simp] theorem conclude_ne_refused {r : Except Fault State} {x : Refusal} : conclude r ≠ .refused x := by
  cases r <;> simp [conclude]

@[simp] theorem ok_bind {α β : Type} (x : α) (k : α → Except Fault β) : (Except.ok x >>= k) = k x := rfl

@[simp] theorem error_bind {α β : Type} (f : Fault) (k : α → Except Fault β) :
    ((Except.error f : Except Fault α) >>= k) = .error f := rfl

theorem bind_eq_ok {α β : Type} {x : Except Fault α} {k : α → Except Fault β} {y : β} :
    (x >>= k) = .ok y ↔ ∃ v, x = .ok v ∧ k v = .ok y := by
  cases x <;> simp

/-- The address check either passes with `p + n + 1` or raises AddressOutOfRange (R114, R115). -/
theorem nextPc_cases (s : State) (op : Word) (n : Nat) :
    (s.pc.toNat + n + 1 ≤ 32767 ∧ s.nextPc op n = .ok (BitVec.ofNat 15 (s.pc.toNat + n + 1))) ∨
    (32767 < s.pc.toNat + n + 1 ∧ s.nextPc op n = .error (.addressOutOfRange s.pc op)) := by
  unfold State.nextPc raise
  split
  · next h => exact .inl ⟨Nat.le_of_lt_succ h, rfl⟩
  · next h => exact .inr ⟨Nat.lt_of_succ_le (Nat.le_of_not_lt h), rfl⟩

theorem nextPc_of_fits {n : Nat} (h : s.pc.toNat + n + 1 ≤ 32767) :
    s.nextPc op n = .ok (BitVec.ofNat 15 (s.pc.toNat + n + 1)) := by
  rcases nextPc_cases s op n with ⟨_, e⟩ | ⟨h', _⟩
  · exact e
  · omega

theorem nextPc_of_top {n : Nat} (h : 32767 < s.pc.toNat + n + 1) :
    s.nextPc op n = .error (.addressOutOfRange s.pc op) := by
  rcases nextPc_cases s op n with ⟨h', _⟩ | ⟨_, e⟩
  · omega
  · exact e

/-- A fitting advance does not wrap. -/
theorem advanced_toNat {n : Nat} (h : s.pc.toNat + n + 1 ≤ 32767) :
    (BitVec.ofNat 15 (s.pc.toNat + n + 1)).toNat = s.pc.toNat + n + 1 := by
  rw [BitVec.toNat_ofNat]; exact Nat.mod_eq_of_lt (by omega)

theorem checkSource_of_some {v : Value} (h : s.resolve o = some v) : s.checkSource op o = .ok v := by
  simp [State.checkSource, h]

theorem checkSource_of_none (h : s.resolve o = none) :
    s.checkSource op o = .error (.invalidOperand s.pc op (encodeOperand o)) := by
  simp [State.checkSource, h, raise]

theorem checkDestination_of_some {r : RegIdx} (h : Operand.register o = some r) :
    s.checkDestination op o = .ok r := by
  simp [State.checkDestination, h]

theorem checkDestination_of_none (h : Operand.register o = none) :
    s.checkDestination op o = .error (.invalidDestination s.pc op (encodeOperand o)) := by
  simp [State.checkDestination, h, raise]

/-- A source operand resolves exactly if it is a literal or a register reference (R86). -/
theorem resolve_isSome (s : State) (o : Operand) : (s.resolve o).isSome = o.isSource := by cases o <;> rfl

/-- An operand names a register exactly if it is a register reference (R87). -/
theorem register_isSome (o : Operand) : (Operand.register o).isSome = o.isDestination := by cases o <;> rfl

theorem register_eq_some {r : RegIdx} : Operand.register o = some r ↔ o = .reg r := by
  cases o <;> simp [Operand.register]

theorem checkSource_eq_ok {v : Value} : s.checkSource op o = .ok v ↔ s.resolve o = some v := by
  unfold State.checkSource raise
  cases s.resolve o <;> simp

theorem checkDestination_eq_ok {r : RegIdx} : s.checkDestination op o = .ok r ↔ o = .reg r := by
  cases o <;> simp [State.checkDestination, Operand.register, raise]

theorem nextPc_eq_ok {n : Nat} {p : Addr} :
    s.nextPc op n = .ok p ↔ s.pc.toNat + n + 1 ≤ 32767 ∧ p = BitVec.ofNat 15 (s.pc.toNat + n + 1) := by
  rcases nextPc_cases s op n with ⟨h, e⟩ | ⟨h, e⟩
  · rw [e]; simp [h, eq_comm]
  · rw [e]; simp; omega

/-- When a format-Z instruction completes, and in which state. -/
theorem runZ_eq_next {effect : State → Except Fault State} : runZ op s effect = .next t ↔
    s.pc.toNat + 1 ≤ 32767 ∧ effect (s.setPc (BitVec.ofNat 15 (s.pc.toNat + 1))) = .ok t := by
  simp only [runZ, conclude_eq_next, bind_eq_ok, nextPc_eq_ok]
  constructor
  · rintro ⟨_, ⟨h, rfl⟩, e⟩
    exact ⟨h, e⟩
  · rintro ⟨h, e⟩
    exact ⟨_, ⟨h, rfl⟩, e⟩

/-- When a format-S instruction completes, and in which state. -/
theorem runS_eq_next {effect : Value → State → Except Fault State} : runS op a s effect = .next t ↔
    s.pc.toNat + 2 ≤ 32767 ∧ ∃ va, s.resolve a = some va ∧
      effect va (s.setPc (BitVec.ofNat 15 (s.pc.toNat + 2))) = .ok t := by
  simp only [runS, conclude_eq_next, bind_eq_ok, nextPc_eq_ok, checkSource_eq_ok]
  constructor
  · rintro ⟨_, ⟨h, rfl⟩, x, hx, e⟩
    exact ⟨h, x, hx, e⟩
  · rintro ⟨h, x, hx, e⟩
    exact ⟨_, ⟨h, rfl⟩, x, hx, e⟩

/-- When a format-SS instruction completes, and in which state. -/
theorem runSS_eq_next {effect : Value → Value → State → Except Fault State} : runSS op a b s effect = .next t ↔
    s.pc.toNat + 3 ≤ 32767 ∧ ∃ va vb, s.resolve a = some va ∧ s.resolve b = some vb ∧
      effect va vb (s.setPc (BitVec.ofNat 15 (s.pc.toNat + 3))) = .ok t := by
  simp only [runSS, conclude_eq_next, bind_eq_ok, nextPc_eq_ok, checkSource_eq_ok]
  constructor
  · rintro ⟨_, ⟨h, rfl⟩, x, hx, y, hy, e⟩
    exact ⟨h, x, y, hx, hy, e⟩
  · rintro ⟨h, x, y, hx, hy, e⟩
    exact ⟨_, ⟨h, rfl⟩, x, hx, y, hy, e⟩

/-- When a format-D instruction completes, and in which state. -/
theorem runD_eq_next {effect : RegIdx → State → Except Fault State} : runD op a s effect = .next t ↔
    s.pc.toNat + 2 ≤ 32767 ∧ ∃ d, a = .reg d ∧
      effect d (s.setPc (BitVec.ofNat 15 (s.pc.toNat + 2))) = .ok t := by
  simp only [runD, conclude_eq_next, bind_eq_ok, nextPc_eq_ok, checkDestination_eq_ok]
  constructor
  · rintro ⟨_, ⟨h, rfl⟩, x, hx, e⟩
    exact ⟨h, x, hx, e⟩
  · rintro ⟨h, x, hx, e⟩
    exact ⟨_, ⟨h, rfl⟩, x, hx, e⟩

/-- When a format-DS instruction completes, and in which state. -/
theorem runDS_eq_next {result : Value → Except Fault Value} : runDS op a b s result = .next t ↔
    s.pc.toNat + 3 ≤ 32767 ∧ ∃ d vb v, a = .reg d ∧ s.resolve b = some vb ∧ result vb = .ok v ∧
      t = (s.setPc (BitVec.ofNat 15 (s.pc.toNat + 3))).setReg d v := by
  simp only [runDS, conclude_eq_next, bind_eq_ok, nextPc_eq_ok, checkDestination_eq_ok, checkSource_eq_ok]
  constructor
  · rintro ⟨_, ⟨h, rfl⟩, d, hd, x, hx, v, hv, e⟩
    exact ⟨h, d, x, v, hd, hx, hv, (Except.ok.inj e).symm⟩
  · rintro ⟨h, d, x, v, hd, hx, hv, rfl⟩
    exact ⟨_, ⟨h, rfl⟩, d, hd, x, hx, v, hv, rfl⟩

/-- When a format-DSS instruction completes, and in which state. -/
theorem runDSS_eq_next {result : Value → Value → Except Fault Value} : runDSS op a b c s result = .next t ↔
    s.pc.toNat + 4 ≤ 32767 ∧ ∃ d vb vc v, a = .reg d ∧ s.resolve b = some vb ∧ s.resolve c = some vc ∧
      result vb vc = .ok v ∧ t = (s.setPc (BitVec.ofNat 15 (s.pc.toNat + 4))).setReg d v := by
  simp only [runDSS, conclude_eq_next, bind_eq_ok, nextPc_eq_ok, checkDestination_eq_ok, checkSource_eq_ok]
  constructor
  · rintro ⟨_, ⟨h, rfl⟩, d, hd, x, hx, y, hy, v, hv, e⟩
    exact ⟨h, d, x, y, v, hd, hx, hy, hv, (Except.ok.inj e).symm⟩
  · rintro ⟨h, d, x, y, v, hd, hx, hy, hv, rfl⟩
    exact ⟨_, ⟨h, rfl⟩, d, hd, x, hx, y, hy, v, hv, rfl⟩

end

end Sys2Proof.Machine
end

