-- ==== Sys2Proof/Laws/Effects.lean ====
section
/-! SUPPORT. What the 22 instructions can do, said once: every next state of `exec`, from which the frames follow. -/

namespace Sys2Proof.Machine

/-- The instruction is one of the ten that compute a Value for register `d`; `pop` and `in` write one too (R23). -/
def ComputesInto (i : Instr) (d : RegIdx) : Prop :=
  (∃ b, i = .set (.reg d) b) ∨ (∃ b c, i = .eq (.reg d) b c) ∨ (∃ b c, i = .gt (.reg d) b c) ∨
  (∃ b c, i = .add (.reg d) b c) ∨ (∃ b c, i = .mult (.reg d) b c) ∨ (∃ b c, i = .mod (.reg d) b c) ∨
  (∃ b c, i = .and (.reg d) b c) ∨ (∃ b c, i = .or (.reg d) b c) ∨ (∃ b, i = .not (.reg d) b) ∨
  (∃ b, i = .rmem (.reg d) b)

/-- If `exec` answers a next state, the instruction lies in memory and the state is one of these (R38, R123). -/
theorem exec_next_cases {i : Instr} {s t : State} (h : exec i s = .next t) :
    Fits i s ∧
    ((∃ d v, t = (s.setPc (BitVec.ofNat 15 (s.pc.toNat + i.arity + 1))).setReg d v ∧ ComputesInto i d) ∨
     (∃ d v rest, i = .pop (.reg d) ∧ s.stack = v :: rest ∧
       t = ((s.setPc (BitVec.ofNat 15 (s.pc.toNat + 2))).setStack rest).setReg d v) ∨
     (∃ d v rest, i = .inp (.reg d) ∧ s.input = v :: rest ∧
       t = ((s.setPc (BitVec.ofNat 15 (s.pc.toNat + 2))).setInput rest).setReg d v) ∨
     (∃ d, i = .inp (.reg d) ∧ s.input = [] ∧ t = s) ∨
     (∃ a v, i = .push a ∧ s.resolve a = some v ∧ t = (s.setPc (BitVec.ofNat 15 (s.pc.toNat + 2))).push v) ∨
     (∃ a v, i = .out a ∧ s.resolve a = some v ∧ t = (s.setPc (BitVec.ofNat 15 (s.pc.toNat + 2))).emit v) ∨
     (∃ a v, i = .call a ∧ s.resolve a = some v ∧
       t = ((s.setPc (BitVec.ofNat 15 (s.pc.toNat + 2))).push (BitVec.ofNat 15 (s.pc.toNat + 2))).setPc v) ∨
     (∃ a v, i = .jmp a ∧ s.resolve a = some v ∧ t = s.setPc v) ∨
     (∃ a b v w, i = .jt a b ∧ s.resolve a = some v ∧ s.resolve b = some w ∧
       t = s.setPc (if valueIsTrue v then w else BitVec.ofNat 15 (s.pc.toNat + 3))) ∨
     (∃ a b v w, i = .jf a b ∧ s.resolve a = some v ∧ s.resolve b = some w ∧
       t = s.setPc (if valueIsTrue v then BitVec.ofNat 15 (s.pc.toNat + 3) else w)) ∨
     (∃ a b v w, i = .wmem a b ∧ s.resolve a = some v ∧ s.resolve b = some w ∧
       t = (s.setPc (BitVec.ofNat 15 (s.pc.toNat + 3))).store v (valueWord w)) ∨
     (i = .ret ∧ ∃ v rest, s.stack = v :: rest ∧ t = (s.setStack rest).setPc v) ∨
     (i = .ret ∧ s.stack = [] ∧ t = (s.setPc (BitVec.ofNat 15 (s.pc.toNat + 1))).setStatus .halted) ∨
     (i = .halt ∧ t = (s.setPc (BitVec.ofNat 15 (s.pc.toNat + 1))).setStatus .halted) ∨
     (i = .noop ∧ t = s.setPc (BitVec.ofNat 15 (s.pc.toNat + 1)))) := by
  cases i with
  | halt =>
    rw [exec_halt, runZ_eq_next] at h; obtain ⟨h, e⟩ := h; cases e
    exact ⟨h, by simp⟩
  | noop =>
    rw [exec_noop, runZ_eq_next] at h; obtain ⟨h, e⟩ := h; cases e
    exact ⟨h, by simp⟩
  | ret =>
    rw [exec_ret, runZ_eq_next] at h; obtain ⟨h, e⟩ := h
    refine ⟨h, ?_⟩
    cases hs : s.stack with
    | nil => simp [hs] at e; subst e; simp
    | cons v r => simp [hs] at e; subst e; simp [ComputesInto]; rfl
  | push a =>
    rw [exec_push, runS_eq_next] at h; obtain ⟨h, v, ha, e⟩ := h; cases e
    exact ⟨h, by simp [ha]⟩
  | out a =>
    rw [exec_out, runS_eq_next] at h; obtain ⟨h, v, ha, e⟩ := h; cases e
    exact ⟨h, by simp [ha]⟩
  | call a =>
    rw [exec_call, runS_eq_next] at h; obtain ⟨h, v, ha, e⟩ := h; cases e
    exact ⟨h, by simp [ha]⟩
  | jmp a =>
    rw [exec_jmp, runS_eq_next] at h; obtain ⟨h, v, ha, e⟩ := h; cases e
    exact ⟨h, by simp [ha, ComputesInto]; rfl⟩
  | pop a =>
    rw [exec_pop, runD_eq_next] at h; obtain ⟨h, d, rfl, e⟩ := h
    refine ⟨h, ?_⟩
    cases hs : s.stack with
    | nil => simp [hs, raise] at e
    | cons v r => simp [hs] at e; subst e; simp
  | inp a =>
    rw [exec_in, runD_eq_next] at h; obtain ⟨h, d, rfl, e⟩ := h
    refine ⟨h, ?_⟩
    cases hs : s.input with
    | nil => simp [hs] at e; subst e; simp
    | cons v r => simp [hs] at e; subst e; simp
  | jt a b =>
    rw [exec_jt, runSS_eq_next] at h; obtain ⟨h, v, w, ha, hb, e⟩ := h; cases e
    refine ⟨h, ?_⟩
    simp [ha, hb, ComputesInto]; split <;> rfl
  | jf a b =>
    rw [exec_jf, runSS_eq_next] at h; obtain ⟨h, v, w, ha, hb, e⟩ := h; cases e
    refine ⟨h, ?_⟩
    simp [ha, hb, ComputesInto]; split <;> rfl
  | wmem a b =>
    rw [exec_wmem, runSS_eq_next] at h; obtain ⟨h, v, w, ha, hb, e⟩ := h; cases e
    exact ⟨h, by simp [ha, hb]⟩
  | set a b =>
    rw [exec_set, runDS_eq_next] at h; obtain ⟨h, d, vb, v, rfl, hb, hv, e⟩ := h
    exact ⟨h, .inl ⟨d, v, e, by simp [ComputesInto]⟩⟩
  | not a b =>
    rw [exec_not, runDS_eq_next] at h; obtain ⟨h, d, vb, v, rfl, hb, hv, e⟩ := h
    exact ⟨h, .inl ⟨d, v, e, by simp [ComputesInto]⟩⟩
  | rmem a b =>
    rw [exec_rmem, runDS_eq_next] at h; obtain ⟨h, d, vb, v, rfl, hb, hv, e⟩ := h
    exact ⟨h, .inl ⟨d, v, e, by simp [ComputesInto]⟩⟩
  | eq a b c =>
    rw [exec_eq, runDSS_eq_next] at h; obtain ⟨h, d, vb, vc, v, rfl, hb, hc, hv, e⟩ := h
    exact ⟨h, .inl ⟨d, v, e, by simp [ComputesInto]⟩⟩
  | gt a b c =>
    rw [exec_gt, runDSS_eq_next] at h; obtain ⟨h, d, vb, vc, v, rfl, hb, hc, hv, e⟩ := h
    exact ⟨h, .inl ⟨d, v, e, by simp [ComputesInto]⟩⟩
  | add a b c =>
    rw [exec_add, runDSS_eq_next] at h; obtain ⟨h, d, vb, vc, v, rfl, hb, hc, hv, e⟩ := h
    exact ⟨h, .inl ⟨d, v, e, by simp [ComputesInto]⟩⟩
  | mult a b c =>
    rw [exec_mult, runDSS_eq_next] at h; obtain ⟨h, d, vb, vc, v, rfl, hb, hc, hv, e⟩ := h
    exact ⟨h, .inl ⟨d, v, e, by simp [ComputesInto]⟩⟩
  | mod a b c =>
    rw [exec_mod, runDSS_eq_next] at h; obtain ⟨h, d, vb, vc, v, rfl, hb, hc, hv, e⟩ := h
    exact ⟨h, .inl ⟨d, v, e, by simp [ComputesInto]⟩⟩
  | and a b c =>
    rw [exec_and, runDSS_eq_next] at h; obtain ⟨h, d, vb, vc, v, rfl, hb, hc, hv, e⟩ := h
    exact ⟨h, .inl ⟨d, v, e, by simp [ComputesInto]⟩⟩
  | or a b c =>
    rw [exec_or, runDSS_eq_next] at h; obtain ⟨h, d, vb, vc, v, rfl, hb, hc, hv, e⟩ := h
    exact ⟨h, .inl ⟨d, v, e, by simp [ComputesInto]⟩⟩

end Sys2Proof.Machine
end

