-- ==== Sys2Proof/Laws/Encoding.lean ====
section
/-! SUPPORT. The small laws of the operand encoding (R85) and of the operand readers of the decoder. -/

namespace Sys2Proof

/-- A canonical operand survives encoding and decoding. -/
theorem decodeOperand_encodeOperand {o : Operand} (h : o.isCanonical = true) : decodeOperand (encodeOperand o) = o := by
  cases o with
  | lit v =>
    have hv := v.isLt
    have e : (BitVec.setWidth 16 v).toNat = v.toNat := by simp; omega
    unfold decodeOperand encodeOperand
    rw [if_pos (by rw [e]; exact hv)]
    congr 1
    apply BitVec.eq_of_toNat_eq
    simp
  | reg r => revert r; decide
  | invalid w =>
    have h' : 32776 ≤ w.toNat := by simpa [Operand.isCanonical] using h
    unfold decodeOperand encodeOperand
    rw [if_neg (show ¬ w.toNat < 32768 by omega), if_neg (show ¬ w.toNat ≤ 32775 by omega)]

/-- Every word survives decoding and encoding: no bit of an operand word is dropped. -/
theorem encodeOperand_decodeOperand (w : Word) : encodeOperand (decodeOperand w) = w := by
  have hw := w.isLt
  unfold decodeOperand Config.regBase Config.regTop
  split
  · apply BitVec.eq_of_toNat_eq
    simp [encodeOperand]
    omega
  · split
    · apply BitVec.eq_of_toNat_eq
      simp [encodeOperand, Config.regBase, Fin.ofNat]
      omega
    · rfl

/-- Every decoded operand is canonical. -/
theorem decodeOperand_canonical (w : Word) : (decodeOperand w).isCanonical = true := by
  unfold decodeOperand Config.regBase Config.regTop
  split
  · rfl
  · split
    · rfl
    · simp [Operand.isCanonical]; omega

theorem oneOperand_eq_ok {op : Word} {mk : Operand → Instr} {ws rest : List Word} {i : Instr} :
    oneOperand op mk ws = .ok (i, rest) ↔ ∃ a, ws = a :: rest ∧ i = mk (decodeOperand a) := by
  unfold oneOperand
  split <;> simp_all [eq_comm, and_comm]

theorem twoOperands_eq_ok {op : Word} {mk : Operand → Operand → Instr} {ws rest : List Word} {i : Instr} :
    twoOperands op mk ws = .ok (i, rest) ↔
      ∃ a b, ws = a :: b :: rest ∧ i = mk (decodeOperand a) (decodeOperand b) := by
  constructor
  · intro h
    unfold twoOperands at h
    split at h <;> simp_all
  · rintro ⟨a, b, rfl, rfl⟩; rfl

theorem threeOperands_eq_ok {op : Word} {mk : Operand → Operand → Operand → Instr} {ws rest : List Word} {i : Instr} :
    threeOperands op mk ws = .ok (i, rest) ↔
      ∃ a b c, ws = a :: b :: c :: rest ∧ i = mk (decodeOperand a) (decodeOperand b) (decodeOperand c) := by
  constructor
  · intro h
    unfold threeOperands at h
    split at h <;> simp_all
  · rintro ⟨a, b, c, rfl, rfl⟩; rfl

end Sys2Proof
end

