-- ==== Sys2Proof/Laws/Faults.lean ====
section
/-! SUPPORT. When an instruction of each format faults, and with what: the address check, the first operand check that
fails, or the instruction's own condition (R114, R116, R212). -/

namespace Sys2Proof.Machine

section
variable {s : State} {op : Word} {a b c : Operand} {f : Fault}

theorem runZ_eq_fault {effect : State → Except Fault State} : runZ op s effect = .fault f ↔
    (32767 < s.pc.toNat + 1 ∧ f = .addressOutOfRange s.pc op) ∨
    (s.pc.toNat + 1 ≤ 32767 ∧ effect (s.setPc (BitVec.ofNat 15 (s.pc.toNat + 1))) = .error f) := by
  rcases nextPc_cases s op 0 with ⟨h, e⟩ | ⟨h, e⟩ <;> simp only [Nat.add_zero] at h e
  · have h' : ¬ 32767 < s.pc.toNat + 1 := by omega
    simp only [runZ, e, h, h', ok_bind, conclude_eq_fault, false_and, true_and, false_or]
  · have h' : ¬ s.pc.toNat + 1 ≤ 32767 := by omega
    simp only [runZ, e, h, h', error_bind, conclude_error, Host.Outcome.fault.injEq]
    simp [eq_comm]

theorem runS_eq_fault {effect : Value → State → Except Fault State} : runS op a s effect = .fault f ↔
    (32767 < s.pc.toNat + 2 ∧ f = .addressOutOfRange s.pc op) ∨
    (s.pc.toNat + 2 ≤ 32767 ∧ firstOperandFault s.pc op [(.source, a)] = some f) ∨
    (s.pc.toNat + 2 ≤ 32767 ∧ ∃ va, s.resolve a = some va ∧
      effect va (s.setPc (BitVec.ofNat 15 (s.pc.toNat + 2))) = .error f) := by
  rcases nextPc_cases s op 1 with ⟨h, e⟩ | ⟨h, e⟩ <;> simp only [Nat.add_assoc, Nat.reduceAdd] at h e
  · have h' : ¬ 32767 < s.pc.toNat + 2 := by omega
    cases a <;>
      simp [runS, e, h, h', State.checkSource, State.resolve, firstOperandFault, Operand.isSource, raise]
  · have h' : ¬ s.pc.toNat + 2 ≤ 32767 := by omega
    simp only [runS, e, h, h', error_bind, conclude_error, Host.Outcome.fault.injEq]
    simp [eq_comm]

theorem runSS_eq_fault {effect : Value → Value → State → Except Fault State} : runSS op a b s effect = .fault f ↔
    (32767 < s.pc.toNat + 3 ∧ f = .addressOutOfRange s.pc op) ∨
    (s.pc.toNat + 3 ≤ 32767 ∧ firstOperandFault s.pc op [(.source, a), (.source, b)] = some f) ∨
    (s.pc.toNat + 3 ≤ 32767 ∧ ∃ va vb, s.resolve a = some va ∧ s.resolve b = some vb ∧
      effect va vb (s.setPc (BitVec.ofNat 15 (s.pc.toNat + 3))) = .error f) := by
  rcases nextPc_cases s op 2 with ⟨h, e⟩ | ⟨h, e⟩ <;> simp only [Nat.add_assoc, Nat.reduceAdd] at h e
  · have h' : ¬ 32767 < s.pc.toNat + 3 := by omega
    cases a <;> cases b <;>
      simp [runSS, e, h, h', State.checkSource, State.resolve, firstOperandFault, Operand.isSource, raise]
  · have h' : ¬ s.pc.toNat + 3 ≤ 32767 := by omega
    simp only [runSS, e, h, h', error_bind, conclude_error, Host.Outcome.fault.injEq]
    simp [eq_comm]

theorem runD_eq_fault {effect : RegIdx → State → Except Fault State} : runD op a s effect = .fault f ↔
    (32767 < s.pc.toNat + 2 ∧ f = .addressOutOfRange s.pc op) ∨
    (s.pc.toNat + 2 ≤ 32767 ∧ firstOperandFault s.pc op [(.destination, a)] = some f) ∨
    (s.pc.toNat + 2 ≤ 32767 ∧ ∃ d, a = .reg d ∧
      effect d (s.setPc (BitVec.ofNat 15 (s.pc.toNat + 2))) = .error f) := by
  rcases nextPc_cases s op 1 with ⟨h, e⟩ | ⟨h, e⟩ <;> simp only [Nat.add_assoc, Nat.reduceAdd] at h e
  · have h' : ¬ 32767 < s.pc.toNat + 2 := by omega
    cases a <;>
      simp [runD, e, h, h', State.checkDestination, Operand.register, firstOperandFault, Operand.isDestination, raise]
  · have h' : ¬ s.pc.toNat + 2 ≤ 32767 := by omega
    simp only [runD, e, h, h', error_bind, conclude_error, Host.Outcome.fault.injEq]
    simp [eq_comm]

theorem runDS_eq_fault {result : Value → Except Fault Value} : runDS op a b s result = .fault f ↔
    (32767 < s.pc.toNat + 3 ∧ f = .addressOutOfRange s.pc op) ∨
    (s.pc.toNat + 3 ≤ 32767 ∧ firstOperandFault s.pc op [(.destination, a), (.source, b)] = some f) ∨
    (s.pc.toNat + 3 ≤ 32767 ∧ ∃ d vb, a = .reg d ∧ s.resolve b = some vb ∧ result vb = .error f) := by
  rcases nextPc_cases s op 2 with ⟨h, e⟩ | ⟨h, e⟩ <;> simp only [Nat.add_assoc, Nat.reduceAdd] at h e
  · have h' : ¬ 32767 < s.pc.toNat + 3 := by omega
    cases a <;> cases b <;>
      simp [runDS, e, h, h', State.checkDestination, Operand.register, State.checkSource, State.resolve,
        firstOperandFault, Operand.isDestination, Operand.isSource, raise]
    all_goals (generalize result _ = x; cases x <;> simp)
  · have h' : ¬ s.pc.toNat + 3 ≤ 32767 := by omega
    simp only [runDS, e, h, h', error_bind, conclude_error, Host.Outcome.fault.injEq]
    simp [eq_comm]

theorem runDSS_eq_fault {result : Value → Value → Except Fault Value} : runDSS op a b c s result = .fault f ↔
    (32767 < s.pc.toNat + 4 ∧ f = .addressOutOfRange s.pc op) ∨
    (s.pc.toNat + 4 ≤ 32767 ∧
      firstOperandFault s.pc op [(.destination, a), (.source, b), (.source, c)] = some f) ∨
    (s.pc.toNat + 4 ≤ 32767 ∧ ∃ d vb vc, a = .reg d ∧ s.resolve b = some vb ∧ s.resolve c = some vc ∧
      result vb vc = .error f) := by
  rcases nextPc_cases s op 3 with ⟨h, e⟩ | ⟨h, e⟩ <;> simp only [Nat.add_assoc, Nat.reduceAdd] at h e
  · have h' : ¬ 32767 < s.pc.toNat + 4 := by omega
    cases a <;> cases b <;> cases c <;>
      simp [runDSS, e, h, h', State.checkDestination, Operand.register, State.checkSource, State.resolve,
        firstOperandFault, Operand.isDestination, Operand.isSource, raise]
    all_goals (generalize result _ _ = x; cases x <;> simp)
  · have h' : ¬ s.pc.toNat + 4 ≤ 32767 := by omega
    simp only [runDSS, e, h, h', error_bind, conclude_error, Host.Outcome.fault.injEq]
    simp [eq_comm]

/-- An instruction whose operands are legal has no operand fault, and one with an illegal operand has one (R116). -/
theorem firstOperandFault_eq_none (p : Addr) (op : Word) (i : Instr) :
    firstOperandFault p op i.operands = none ↔ i.isWellFormed = true := by
  cases i <;> simp only [Instr.operands, Instr.isWellFormed, firstOperandFault, Bool.and_eq_true] <;> split_ifs <;>
    simp_all

end

end Sys2Proof.Machine
end

