-- ==== Sys2Proof/Laws/Memory.lean ====
section
/-! SUPPORT. The laws of memory: a read after a write, and that every memory operation keeps the canonical form. -/

namespace Sys2Proof.Machine

theorem lookup_insert_same (m : Memory) (a : Nat) (w : Word) :
    Memory.lookup (Memory.insert m a w) a = some w := by
  induction m with
  | nil => simp [Memory.insert, Memory.lookup]
  | cons c rest ih =>
    obtain ⟨k, v⟩ := c
    unfold Memory.insert
    split
    · simp [Memory.lookup]
    · split
      · simp [Memory.lookup]
      · next h => simp [Memory.lookup, Ne.symm h, ih]

theorem lookup_insert_other (m : Memory) {a b : Nat} (w : Word) (hab : b ≠ a) :
    Memory.lookup (Memory.insert m a w) b = Memory.lookup m b := by
  induction m with
  | nil => simp [Memory.insert, Memory.lookup, hab.symm]
  | cons c rest ih =>
    obtain ⟨k, v⟩ := c
    unfold Memory.insert
    split
    · simp [Memory.lookup, hab.symm]
    · split
      · next h => subst h; simp [Memory.lookup, hab.symm]
      · simp [Memory.lookup, ih]

/-- A cell reads as what was last written to it (R53). -/
@[simp] theorem read_write_same (m : Memory) (a : Addr) (w : Word) :
    Memory.read (Memory.write m a w) a = w := by
  simp [Memory.read, Memory.write, lookup_insert_same]

/-- A write leaves every other cell alone (R53). -/
theorem read_write_other (m : Memory) {a b : Addr} (w : Word) (h : b ≠ a) :
    Memory.read (Memory.write m a w) b = Memory.read m b := by
  have : b.toNat ≠ a.toNat := fun e => h (BitVec.eq_of_toNat_eq e)
  simp [Memory.read, Memory.write, lookup_insert_other m w this]

theorem mem_insert {m : Memory} {a : Nat} {w : Word} {c : Nat × Word}
    (h : c ∈ Memory.insert m a w) : c = (a, w) ∨ c ∈ m := by
  induction m with
  | nil => simpa [Memory.insert] using h
  | cons d rest ih =>
    obtain ⟨k, v⟩ := d
    unfold Memory.insert at h
    split at h
    · simpa using h
    · split at h
      · simp only [List.mem_cons] at h ⊢
        tauto
      · rcases List.mem_cons.1 h with h | h
        · simp [h]
        · rcases ih h with h | h <;> simp [h]

theorem insert_wf {m : Memory} {a : Nat} (w : Word) (hm : Memory.wf m) (ha : a < Config.memCells) :
    Memory.wf (Memory.insert m a w) := by
  refine ⟨?_, fun c hc => ?_⟩
  · have hp := hm.1
    clear hm
    induction m with
    | nil => simp [Memory.insert]
    | cons d rest ih =>
      obtain ⟨k, v⟩ := d
      obtain ⟨hd, hr⟩ := List.pairwise_cons.1 hp
      unfold Memory.insert
      split
      · next h =>
        refine List.pairwise_cons.2 ⟨fun c hc => ?_, hp⟩
        rcases List.mem_cons.1 hc with rfl | hc
        · exact h
        · exact h.trans (hd c hc)
      · split
        · next h => subst h; exact List.pairwise_cons.2 ⟨hd, hr⟩
        · next h1 h2 =>
          refine List.pairwise_cons.2 ⟨fun c hc => ?_, ih hr⟩
          rcases mem_insert hc with rfl | hc
          · exact lt_of_le_of_ne (Nat.le_of_not_lt h1) (Ne.symm h2)
          · exact hd c hc
  · rcases mem_insert hc with rfl | hc
    · exact ha
    · exact hm.2 c hc

/-- A write keeps the canonical form. -/
theorem write_wf {m : Memory} (a : Addr) (w : Word) (hm : Memory.wf m) : Memory.wf (Memory.write m a w) :=
  insert_wf w hm a.isLt

/-- In canonical form, memories that list the same word for every address are the same list. -/
theorem memory_ext {m n : Memory} (hm : Memory.wf m) (hn : Memory.wf n)
    (h : ∀ a, Memory.lookup m a = Memory.lookup n a) : m = n := by
  have low : ∀ {m : Memory} {k : Nat}, (∀ c ∈ m, k < c.1) → Memory.lookup m k = none := by
    intro m k hk
    induction m with
    | nil => rfl
    | cons c rest ih =>
      obtain ⟨j, v⟩ := c
      have hj := hk (j, v) (by simp)
      simp only [Memory.lookup, (Nat.ne_of_gt hj), if_false]
      exact ih fun c hc => hk c (by simp [hc])
  have hp := hm.1
  have hq := hn.1
  clear hm hn
  induction m generalizing n with
  | nil =>
    cases n with
    | nil => rfl
    | cons d rest =>
      have := h d.1
      simp [Memory.lookup] at this
  | cons c rest ih =>
    obtain ⟨k, v⟩ := c
    obtain ⟨hk, hr⟩ := List.pairwise_cons.1 hp
    cases n with
    | nil => have := h k; simp [Memory.lookup] at this
    | cons d tail =>
      obtain ⟨j, u⟩ := d
      obtain ⟨hj, ht⟩ := List.pairwise_cons.1 hq
      have hkj : k = j := by
        rcases Nat.lt_trichotomy k j with hlt | heq | hgt
        · have hn : Memory.lookup ((j, u) :: tail) k = none := low (by
            intro c hc
            rcases List.mem_cons.1 hc with rfl | hc
            · exact hlt
            · exact hlt.trans (hj c hc))
          have := h k
          rw [hn] at this
          simp [Memory.lookup] at this
        · exact heq
        · have hn : Memory.lookup ((k, v) :: rest) j = none := low (by
            intro c hc
            rcases List.mem_cons.1 hc with rfl | hc
            · exact hgt
            · exact hgt.trans (hk c hc))
          have := h j
          rw [hn] at this
          simp [Memory.lookup] at this
      subst hkj
      have hvu : v = u := by simpa [Memory.lookup] using h k
      subst hvu
      congr 1
      refine ih (fun a => ?_) hr ht
      by_cases ha : k = a
      · subst ha; rw [low hk, low hj]
      · simpa [Memory.lookup, ha] using h a

theorem cellsFrom_bounds {a : Nat} {ws : List Word} {c : Nat × Word} (h : c ∈ cellsFrom a ws) :
    a ≤ c.1 ∧ c.1 < a + ws.length := by
  induction ws generalizing a with
  | nil => simp [cellsFrom] at h
  | cons w ws ih =>
    rcases List.mem_cons.1 h with rfl | h
    · simp
    · have := ih h
      simp only [List.length_cons]
      omega

/-- The memory an image gives is in canonical form. -/
theorem cellsFrom_wf {ws : List Word} (a : Nat) (h : a + ws.length ≤ Config.memCells) :
    Memory.wf (cellsFrom a ws) := by
  refine ⟨?_, fun c hc => lt_of_lt_of_le (cellsFrom_bounds hc).2 h⟩
  clear h
  induction ws generalizing a with
  | nil => simp [cellsFrom]
  | cons w ws ih => exact List.pairwise_cons.2 ⟨fun c hc => (cellsFrom_bounds hc).1, ih (a + 1)⟩

theorem lookup_cellsFrom (a : Nat) (ws : List Word) (k : Nat) :
    Memory.lookup (cellsFrom a ws) k = if a ≤ k then ws[k - a]? else none := by
  induction ws generalizing a with
  | nil => simp [cellsFrom, Memory.lookup]
  | cons w ws ih =>
    simp only [cellsFrom, Memory.lookup, ih]
    by_cases h : a = k
    · subst h; simp
    · rcases Nat.lt_or_ge k a with hlt | hge
      · simp [h, show ¬ a + 1 ≤ k by omega, show ¬ a ≤ k by omega]
      · have : k - a = (k - (a + 1)) + 1 := by omega
        simp [h, hge, show a + 1 ≤ k by omega, this]

/-- The memory after reset is in canonical form. -/
theorem reset_mem_wf : Memory.wf State.reset.mem := by simp [State.reset, Memory.wf]

end Sys2Proof.Machine
end

