-- ==== Sys2Proof/Laws/Hooks.lean ====
section
/-! SUPPORT. What the hook phase can do (R219): whatever a script's acts and a callback's effect keep, the phase keeps. -/

namespace Sys2Proof.Machine

/-- Phase 1 in one lemma: it keeps every property that the single updates a hook is made of keep. -/
theorem hookPhase_keeps {P : State → Prop} (s : State) (h0 : P s)
    (hReg : ∀ u r v, P u → P (u.setReg r v)) (hStore : ∀ u a w, P u → P (u.store a w))
    (hStack : ∀ u vs, P u → P (u.setStack vs)) (hPc : ∀ u p, P u → P (u.setPc p))
    (hStatus : ∀ u st, P u → P (u.setStatus st)) (hRegs : ∀ u (v : RegFile), P u → P { u with regs := v }) :
    P (hookPhase s) := by
  have act : ∀ (x : HookAct) (u : State), P u → P (x.run u) := by
    intro x
    induction x with
    | setReg r x => exact fun u h => hReg u r _ h
    | setCell a x => exact fun u h => hStore u _ _ h
    | setStack xs => exact fun u h => hStack u _ h
    | setPc x => exact fun u h => hPc u _ h
    | setStatus st => exact fun u h => hStatus u st h
    | onlyIf x y ih =>
      intro u h
      unfold HookAct.run
      split
      · exact h
      · exact ih u h
  have acts : ∀ (xs : List HookAct) (u : State), P u → P (xs.foldl HookAct.run u) := by
    intro xs
    induction xs with
    | nil => exact fun u h => h
    | cons x xs ih => exact fun u h => ih _ (act x u h)
  have stores : ∀ (cs : List (Addr × Word)) (u : State), P u → P (cs.foldl (fun u c => u.store c.1 c.2) u) := by
    intro cs
    induction cs with
    | nil => exact fun u h => h
    | cons c cs ih => exact fun u h => ih _ (hStore u c.1 c.2 h)
  unfold hookPhase
  split
  · next h _ =>
    cases h with
    | script xs => exact acts xs s h0
    | callback n =>
      exact hStatus _ _ (hPc _ _ (hStack _ _ (hRegs _ _ (stores _ s h0))))
  · exact h0

/-- With no entry at pc phase 1 does nothing (R112). -/
theorem hookPhase_of_none {s : State} (h : hookAt s.hooks s.pc = none) : hookPhase s = s := by
  simp [hookPhase, h]

end Sys2Proof.Machine
end

