-- ==== Sys2Proof/Laws/Loop.lean ====
section
/-! SUPPORT. What one step can do, said once: the ways it answers a next state, a fault, or a refusal. -/

namespace Sys2Proof.Machine

/-- Every next state of a step: a Halted machine as it was, a Blocked step's own state, what a halting hook left, or what
the fetched instruction answers in the state the hook phase left. -/
theorem step_eq_next {s t : State} (h : step s = .next t) :
    (s.status = .halted ∧ t = s) ∨
    (s.status = .running ∧ (hookPhase s).status = .halted ∧ t = hookPhase s) ∨
    (∃ i, s.status = .running ∧ (hookPhase s).status = .running ∧ fetch (hookPhase s) = .ok i ∧
      ((awaitsInput i (hookPhase s) = true ∧ t = s) ∨
       (awaitsInput i (hookPhase s) = false ∧ exec i (hookPhase s) = .next t))) := by
  unfold step takeStep stepOutcome at h
  cases hs : s.status with
  | halted => simp only [hs] at h; cases h; exact .inl ⟨rfl, rfl⟩
  | running =>
    simp only [hs] at h
    cases hu : (hookPhase s).status with
    | halted => simp only [hu, if_true] at h; cases h; exact .inr (.inl ⟨rfl, rfl, rfl⟩)
    | running =>
      simp only [hu, reduceCtorEq, if_false] at h
      cases hf : fetch (hookPhase s) with
      | error f => simp [hf] at h
      | ok i =>
        simp only [hf] at h
        refine .inr (.inr ⟨i, rfl, rfl, rfl, ?_⟩)
        cases hb : awaitsInput i (hookPhase s) with
        | true => simp only [hb, if_true] at h; cases h; exact .inl ⟨rfl, rfl⟩
        | false =>
          simp only [hb, Bool.false_eq_true, if_false] at h
          refine .inr ⟨rfl, ?_⟩
          cases hx : exec i (hookPhase s) with
          | next u =>
            simp only [hx, afterEffect] at h
            by_cases hz : u.status = .halted <;> simp only [hz, if_true, if_false] at h <;> exact h
          | fault f => simp [hx, afterEffect] at h
          | refused r => simp [hx, afterEffect] at h

/-- The step that gets past the hook phase and does not wait is the fetched instruction's own answer. -/
theorem step_of_fetch {s : State} {i : Instr} (hs : s.status = .running) (hu : (hookPhase s).status = .running)
    (hf : fetch (hookPhase s) = .ok i) (hb : awaitsInput i (hookPhase s) = false) :
    step s = exec i (hookPhase s) := by
  unfold step takeStep stepOutcome
  simp only [hs, hu, hf, hb, reduceCtorEq, if_false, Bool.false_eq_true]
  cases exec i (hookPhase s) with
  | next u => by_cases hz : u.status = .halted <;> simp [afterEffect, hz]
  | fault f => rfl
  | refused r => rfl

/-- A step whose fetch fails is that fault. -/
theorem step_of_fetch_error {s : State} {f : Fault} (hs : s.status = .running)
    (hu : (hookPhase s).status = .running) (hf : fetch (hookPhase s) = .error f) : step s = .fault f := by
  unfold step takeStep stepOutcome
  simp [hs, hu, hf]

/-- A step whose instruction waits for input is Blocked and keeps the state of before the hook phase (R119). -/
theorem step_of_blocked {s : State} {i : Instr} (hs : s.status = .running) (hu : (hookPhase s).status = .running)
    (hf : fetch (hookPhase s) = .ok i) (hb : awaitsInput i (hookPhase s) = true) :
    stepOutcome s = .blocked ∧ step s = .next s := by
  have : stepOutcome s = .blocked := by
    unfold stepOutcome
    simp [hu, hf, hb]
  exact ⟨this, by simp [step, takeStep, hs, this]⟩

/-- Reading consecutive cells stops at the top of memory. -/
theorem readUpTo_of_fits (m : Memory) (a n : Nat) (h : a + n ≤ 32768) :
    Memory.readUpTo m a n = (List.range n).map fun k => Memory.read m (BitVec.ofNat 15 (a + k)) := by
  induction n generalizing a with
  | zero => rfl
  | succ n ih =>
    have ha : a < Config.memCells := by show a < 32768; omega
    rw [Memory.readUpTo, if_pos ha, ih (a + 1) (by omega), List.range_succ_eq_map, List.map_cons, List.map_map]
    congr 1
    refine List.map_congr_left fun k _ => ?_
    simp [Nat.add_comm k 1, Nat.add_assoc]

/-- Words that stand in consecutive cells are what a reader of at least as many cells reads first. -/
theorem readUpTo_prefix (m : Memory) (ws : List Word) (a n : Nat) (hn : ws.length ≤ n)
    (h : ∀ k, (hk : k < ws.length) → a + k < 32768 ∧ Memory.read m (BitVec.ofNat 15 (a + k)) = ws[k]) :
    ∃ rest, Memory.readUpTo m a n = ws ++ rest := by
  induction ws generalizing a n with
  | nil => exact ⟨_, rfl⟩
  | cons w ws ih =>
    obtain ⟨n, rfl⟩ : ∃ j, n = j + 1 := ⟨n - 1, by simp at hn; omega⟩
    obtain ⟨h0, h1⟩ := h 0 (by simp)
    obtain ⟨rest, hr⟩ := ih (a + 1) n (by simpa using hn) (fun k hk => by
      have := h (k + 1) (by simpa using hk)
      simpa [Nat.add_assoc, Nat.add_comm 1 k] using this)
    refine ⟨rest, ?_⟩
    rw [Memory.readUpTo, if_pos (show a < Config.memCells from h0), hr]
    simp at h1
    simp [h1]

end Sys2Proof.Machine
end

