-- ==== Sys2Proof/Laws/PerInstr.lean ====
section
/-! SUPPORT. A fact about every instruction as syntax, one lemma per constructor: the opcode is one of the 22, the arity is
that of the table under 30_encoding.md R82, and the instruction occupies one cell more than its arity (R80, R83). -/

namespace Sys2Proof.Laws.EncodingShape

/-- The arities of the table under R82, by opcode. -/
def tableArity : List Nat := [0, 2, 1, 1, 3, 3, 1, 2, 2, 3, 3, 3, 3, 3, 2, 2, 2, 1, 0, 1, 1, 0]

/-- The opcode is in the table, its arity is the table's, and the encoding is the opcode cell and that many cells. -/
def Statement (i : Instr) : Prop :=
  tableArity[i.opcode.toNat]? = some i.arity ∧ (encode i).length = i.arity + 1 ∧ (encode i).head? = some i.opcode

theorem halt : Statement (.halt) := ⟨rfl, rfl, rfl⟩
theorem set (a b : Operand) : Statement (.set a b) := ⟨rfl, rfl, rfl⟩
theorem push (a : Operand) : Statement (.push a) := ⟨rfl, rfl, rfl⟩
theorem pop (a : Operand) : Statement (.pop a) := ⟨rfl, rfl, rfl⟩
theorem eq (a b c : Operand) : Statement (.eq a b c) := ⟨rfl, rfl, rfl⟩
theorem gt (a b c : Operand) : Statement (.gt a b c) := ⟨rfl, rfl, rfl⟩
theorem jmp (a : Operand) : Statement (.jmp a) := ⟨rfl, rfl, rfl⟩
theorem jt (a b : Operand) : Statement (.jt a b) := ⟨rfl, rfl, rfl⟩
theorem jf (a b : Operand) : Statement (.jf a b) := ⟨rfl, rfl, rfl⟩
theorem add (a b c : Operand) : Statement (.add a b c) := ⟨rfl, rfl, rfl⟩
theorem mult (a b c : Operand) : Statement (.mult a b c) := ⟨rfl, rfl, rfl⟩
theorem mod (a b c : Operand) : Statement (.mod a b c) := ⟨rfl, rfl, rfl⟩
theorem and (a b c : Operand) : Statement (.and a b c) := ⟨rfl, rfl, rfl⟩
theorem or (a b c : Operand) : Statement (.or a b c) := ⟨rfl, rfl, rfl⟩
theorem not (a b : Operand) : Statement (.not a b) := ⟨rfl, rfl, rfl⟩
theorem rmem (a b : Operand) : Statement (.rmem a b) := ⟨rfl, rfl, rfl⟩
theorem wmem (a b : Operand) : Statement (.wmem a b) := ⟨rfl, rfl, rfl⟩
theorem call (a : Operand) : Statement (.call a) := ⟨rfl, rfl, rfl⟩
theorem ret : Statement (.ret) := ⟨rfl, rfl, rfl⟩
theorem out (a : Operand) : Statement (.out a) := ⟨rfl, rfl, rfl⟩
theorem inp (a : Operand) : Statement (.inp a) := ⟨rfl, rfl, rfl⟩
theorem noop : Statement (.noop) := ⟨rfl, rfl, rfl⟩

end Sys2Proof.Laws.EncodingShape
end

