-- ==== Sys2Proof/Machine/Listing.lean ====
section
/-! DEFINITION. The listing line of an instruction, the one textual form the source defines (30_encoding.md R95, R96).
Nothing in the CORE depends on it. -/

namespace Sys2Proof.Machine

/-- The mnemonic of an instruction (R82, R95). -/
def mnemonic : Instr → String
  | .halt => "halt"
  | .set _ _ => "set"
  | .push _ => "push"
  | .pop _ => "pop"
  | .eq _ _ _ => "eq"
  | .gt _ _ _ => "gt"
  | .jmp _ => "jmp"
  | .jt _ _ => "jt"
  | .jf _ _ => "jf"
  | .add _ _ _ => "add"
  | .mult _ _ _ => "mult"
  | .mod _ _ _ => "mod"
  | .and _ _ _ => "and"
  | .or _ _ _ => "or"
  | .not _ _ => "not"
  | .rmem _ _ => "rmem"
  | .wmem _ _ => "wmem"
  | .call _ => "call"
  | .ret => "ret"
  | .out _ => "out"
  | .inp _ => "in"
  | .noop => "noop"

/-- An operand as the listing writes it: a decimal literal or `R[i]`. The form of a word above 32775 is not stated, so it
has none (R95). -/
def operandText : Operand → Option String
  | .lit v => some (toString v.toNat)
  | .reg r => some ("R[" ++ toString r.val ++ "]")
  | .invalid _ => none

/-- The operands with commas between them. -/
def operandsText : List (Role × Operand) → Option String
  | [] => some ""
  | [o] => operandText o.2
  | o :: rest =>
    match operandText o.2, operandsText rest with
    | some x, some y => some (x ++ "," ++ y)
    | _, _ => none

/-- The listing line of the words at address `p`, and how many words it covers (R95, R96). Where the form of a line is not
stated there is no line. Log 18. -/
def listingLine (p : Addr) (ws : List Word) : Option (String × Nat) :=
  match ws with
  | [] => none
  | w :: rest =>
    match decodeFrom w rest with
    | .error (.unknownOpcode _) => some (toString p.toNat ++ "\t" ++ toString w.toNat, 1)
    | .error _ => none
    | .ok (i, _) =>
      match operandsText i.operands with
      | none => none
      | some t =>
        let head := toString p.toNat ++ "\t" ++ mnemonic i
        some (if i.arity = 0 then head else head ++ "\t" ++ t, i.arity + 1)

end Sys2Proof.Machine
end

