-- ==== Sys2Proof/Tests/Slice0.lean ====
section
/-! SUPPORT. Tests: the checks of WellFormed refuse what they should; words written out from the spec decode; single steps
give what the vectors of 95_test_vectors.md say (their ids stand in the docstrings); and for every obligation with
hypotheses a state that meets them. No expected value was taken from the model. -/

namespace Sys2Proof.Tests

open Sys2Proof Sys2Proof.Machine

/-! ## Small states and readers of an outcome -/

/-- Reset, with pc at `p` and the words `ws` in the cells from `p`. -/
def atPc (p : Addr) (ws : List Word) : State := { State.reset with pc := p, mem := cellsFrom p.toNat ws }

/-- Register `r` holds `v`. -/
def withReg (s : State) (r : RegIdx) (v : Value) : State := { s with regs := s.regs.set r v }

def withStack (s : State) (vs : List Value) : State := { s with stack := vs }
def withInput (s : State) (vs : List Value) : State := { s with input := vs }
def withCell (s : State) (a : Addr) (w : Word) : State := { s with mem := Memory.write s.mem a w }
def withHooks (s : State) (hs : List (Addr × Hook)) : State := { s with hooks := hs }

/-- What `f` reads from the next state, if there is one. -/
def after {α : Type} (r : Result) (f : State → α) : Option α :=
  match r with
  | .next t => some (f t)
  | .fault _ => none
  | .refused _ => none

/-- The fault, if there is one. -/
def faultOf (r : Result) : Option Fault :=
  match r with
  | .next _ => none
  | .fault f => some f
  | .refused _ => none

/-- What the decoder reads, if it reads an instruction. -/
def decoded (ws : List Word) : Option (Instr × List Word) := (decode ws).toOption

/-! ## WellFormed refuses each kind of ill-formed term (R86, R87, R88) -/

theorem test_wf_literal_destination : Instr.isWellFormed (.set (.lit 5) (.lit 7)) = false := by decide
theorem test_wf_invalid_destination : Instr.isWellFormed (.pop (.invalid 32776)) = false := by decide
theorem test_wf_invalid_source_a : Instr.isWellFormed (.wmem (.invalid 32776) (.lit 1)) = false := by decide
theorem test_wf_invalid_source_b : Instr.isWellFormed (.jt (.lit 1) (.invalid 32776)) = false := by decide
theorem test_wf_invalid_source_c : Instr.isWellFormed (.add (.reg 0) (.lit 1) (.invalid 65535)) = false := by decide
theorem test_wf_noncanonical_operand : Instr.isCanonical (.push (.invalid 5)) = false := by decide
theorem test_wf_legal : Instr.isWellFormed (.wmem (.reg 0) (.lit 5)) = true ∧
    Instr.isWellFormed (.add (.reg 7) (.reg 0) (.lit 32767)) = true := by decide

/-! ## Decoding: for every constructor a word written out from the tables of R82, R84 and R85 -/

theorem test_decode_format_z : decoded [0] = some (.halt, []) ∧ decoded [18] = some (.ret, []) ∧
    decoded [21] = some (.noop, []) := by decide

theorem test_decode_format_s : decoded [2, 32767] = some (.push (.lit 32767), []) ∧
    decoded [6, 32768] = some (.jmp (.reg 0), []) ∧ decoded [17, 0] = some (.call (.lit 0), []) ∧
    decoded [19, 32775] = some (.out (.reg 7), []) := by decide

theorem test_decode_format_d : decoded [3, 32769] = some (.pop (.reg 1), []) ∧
    decoded [20, 5] = some (.inp (.lit 5), []) := by decide

theorem test_decode_format_ds : decoded [1, 32768, 4] = some (.set (.reg 0) (.lit 4), []) ∧
    decoded [14, 32770, 32771] = some (.not (.reg 2) (.reg 3), []) ∧
    decoded [15, 32772, 100] = some (.rmem (.reg 4) (.lit 100), []) := by decide

theorem test_decode_format_ss : decoded [7, 1, 50] = some (.jt (.lit 1) (.lit 50), []) ∧
    decoded [8, 32773, 40000] = some (.jf (.reg 5) (.invalid 40000), []) ∧
    decoded [16, 600, 32774] = some (.wmem (.lit 600) (.reg 6), []) := by decide

theorem test_decode_format_dss_compare :
    decoded [4, 32768, 1, 2] = some (.eq (.reg 0) (.lit 1) (.lit 2), []) ∧
    decoded [5, 32775, 32768, 32767] = some (.gt (.reg 7) (.reg 0) (.lit 32767), []) := by decide

theorem test_decode_format_dss_arithmetic :
    decoded [9, 32769, 32768, 64] = some (.add (.reg 1) (.reg 0) (.lit 64), []) ∧
    decoded [10, 32768, 181, 182] = some (.mult (.reg 0) (.lit 181) (.lit 182), []) ∧
    decoded [11, 32769, 32768, 7] = some (.mod (.reg 1) (.reg 0) (.lit 7), []) ∧
    decoded [12, 32770, 32768, 32769] = some (.and (.reg 2) (.reg 0) (.reg 1), []) ∧
    decoded [13, 32771, 65535, 32776] = some (.or (.reg 3) (.invalid 65535) (.invalid 32776), []) := by decide

/-- V182 to V185, V187: no bit of the opcode cell is ignored. -/
theorem test_decode_unknown : decoded [22] = none ∧ decoded [256] = none ∧ decoded [32768] = none ∧
    decoded [65535] = none ∧ decoded [22, 32776] = none := by decide

/-- P1's image read instruction by instruction: the words behind an instruction are left over. -/
theorem test_decode_leaves_rest : decoded [19, 32769, 9, 32768] = some (.out (.reg 1), [9, 32768]) := by decide

theorem test_encode_set : encode (.set (.reg 7) (.lit 32767)) = [1, 32775, 32767] := by decide

/-- `add R[0], R[1], 4` as one number: 9, then 32768, 32769 and 4 in the words above. -/
theorem test_decodeTableWord :
    decodeTableWord 64 (9 + 65536 * 32768 + 65536 ^ 2 * 32769 + 65536 ^ 3 * 4) =
      some (.add (.reg 0) (.reg 1) (.lit 4)) ∧
    decodeTableWord 16 18 = some .ret ∧ decodeTableWord 16 22 = none := by decide

/-- A placed table word is the very next instruction: `out 65`. -/
theorem test_withFetchWord :
    after (step (State.reset.withFetchWord 32 (19 + 65536 * 65))) (fun t => (t.output, t.pc)) = some ([65], 2) := by
  decide

/-! ## One step: halt, noop -/

/-- V177. -/
theorem test_halt : after (step (withStack (atPc 32766 [0]) [1])) (fun t => (t.status, t.pc, t.stack)) =
    some (.halted, 32767, [1]) := by decide
/-- V178. -/
theorem test_halt_last_cell : faultOf (step (atPc 32767 [0])) = some (.addressOutOfRange 32767 0) := by decide
/-- V180. -/
theorem test_noop : after (step (atPc 32766 [21])) (fun t => (t.status, t.pc)) = some (.running, 32767) := by decide
/-- V181. -/
theorem test_noop_last_cell : faultOf (step (atPc 32767 [21])) = some (.addressOutOfRange 32767 21) := by decide

/-! ## One step: set, push, pop -/

/-- V3. -/
theorem test_set : after (step (withReg (atPc 0 [1, 32769, 32768]) 0 1234)) (fun t => (t.reg 1, t.pc)) =
    some (1234, 3) := by decide
/-- V10. -/
theorem test_set_order : faultOf (step (atPc 0 [1, 5, 32776])) = some (.invalidDestination 0 1 5) := by decide
/-- V12; the top is first in the model's list. -/
theorem test_push : after (step (withStack (withReg (atPc 0 [2, 32770]) 2 300) [1])) (fun t => (t.stack, t.pc)) =
    some ([300, 1], 2) := by decide
/-- V14. -/
theorem test_push_invalid : faultOf (step (atPc 0 [2, 32776])) = some (.invalidOperand 0 2 32776) := by decide
/-- V15. -/
theorem test_pop : after (step (withStack (atPc 0 [3, 32768]) [2, 1])) (fun t => (t.reg 0, t.stack, t.pc)) =
    some (2, [1], 2) := by decide
/-- V17 and V19. -/
theorem test_pop_empty : faultOf (step (atPc 0 [3, 32768])) = some (.stackUnderflow 0 3) ∧
    faultOf (step (atPc 0 [3, 0])) = some (.invalidDestination 0 3 0) := by decide

/-! ## One step: eq, gt -/

/-- V21. -/
theorem test_eq : after (step (withReg (atPc 0 [4, 32768, 5, 6]) 0 7)) (fun t => (t.reg 0, t.pc)) = some (0, 4) := by
  decide
/-- V23: the destination is also a source. -/
theorem test_eq_same_register : after (step (atPc 0 [4, 32768, 32768, 0])) (fun t => (t.reg 0, t.pc)) =
    some (1, 4) := by decide
/-- V32. -/
theorem test_gt_unsigned : after (step (atPc 0 [5, 32768, 32767, 0])) (fun t => t.reg 0) = some 1 := by decide
/-- V31 and V33. -/
theorem test_gt_strict : after (step (withReg (atPc 0 [5, 32768, 5, 5]) 0 9)) (fun t => t.reg 0) = some 0 ∧
    after (step (withReg (atPc 0 [5, 32768, 0, 32767]) 0 9)) (fun t => t.reg 0) = some 0 := by decide

/-! ## One step: jmp, jt, jf -/

/-- V45. -/
theorem test_jmp : after (step (atPc 32765 [6, 0])) (fun t => t.pc) = some 0 := by decide
/-- V44. -/
theorem test_jmp_top : faultOf (step (atPc 32766 [6, 0])) = some (.addressOutOfRange 32766 6) := by decide
/-- V49 and V47. -/
theorem test_jt :
    after (step (withReg (withReg (atPc 0 [7, 32768, 32769]) 0 2) 1 9)) (fun t => t.pc) = some 9 ∧
    after (step (atPc 0 [7, 0, 50])) (fun t => t.pc) = some 3 := by decide
/-- V51. -/
theorem test_jt_not_taken_invalid : faultOf (step (atPc 0 [7, 0, 40000])) = some (.invalidOperand 0 7 40000) := by
  decide
/-- V55 and V58. -/
theorem test_jf : after (step (atPc 0 [8, 0, 50])) (fun t => t.pc) = some 50 ∧
    after (step (withReg (withReg (atPc 0 [8, 32768, 32769]) 0 5) 1 9)) (fun t => t.pc) = some 3 := by decide
/-- V59. -/
theorem test_jf_not_taken_invalid : faultOf (step (atPc 0 [8, 1, 40000])) = some (.invalidOperand 0 8 40000) := by
  decide

/-! ## One step: arithmetic and logic -/

/-- V68: the destination is both sources. -/
theorem test_add_wraps : after (step (withReg (atPc 0 [9, 32768, 32768, 32768]) 0 20000)) (fun t => t.reg 0) =
    some 7232 := by decide
/-- V75. -/
theorem test_add_top : after (step (atPc 32763 [9, 32768, 1, 1])) (fun t => (t.reg 0, t.pc)) = some (2, 32767) := by
  decide
/-- V78. -/
theorem test_mult : after (step (atPc 0 [10, 32768, 12345, 6789])) (fun t => t.reg 0) = some 22429 := by decide
/-- V81. -/
theorem test_mult_largest : after (step (atPc 0 [10, 32768, 32767, 32767])) (fun t => t.reg 0) = some 1 := by decide
/-- V90 and V96. -/
theorem test_mod : after (step (atPc 0 [11, 32768, 100, 7])) (fun t => t.reg 0) = some 2 ∧
    after (step (atPc 0 [11, 32768, 32767, 32766])) (fun t => t.reg 0) = some 1 := by decide
/-- V98, V101 and V192. -/
theorem test_mod_faults : faultOf (step (atPc 0 [11, 32768, 7, 32769])) = some (.modByZero 0 11) ∧
    faultOf (step (atPc 0 [11, 32768, 40000, 0])) = some (.invalidOperand 0 11 40000) ∧
    faultOf (step (atPc 32764 [11, 32768, 1, 0])) = some (.addressOutOfRange 32764 11) := by decide
/-- V104. -/
theorem test_and : after (step (atPc 0 [12, 32768, 21845, 13107])) (fun t => (t.reg 0, t.pc)) = some (4369, 4) := by
  decide
/-- V111. -/
theorem test_and_destination : faultOf (step (atPc 0 [12, 0, 1, 1])) = some (.invalidDestination 0 12 0) := by decide
/-- V112. -/
theorem test_or : after (step (atPc 0 [13, 32768, 21845, 13107])) (fun t => (t.reg 0, t.pc)) = some (30583, 4) := by
  decide
/-- V118. -/
theorem test_or_invalid_c : faultOf (step (atPc 0 [13, 32768, 1, 32776])) = some (.invalidOperand 0 13 32776) := by
  decide
/-- V120: bit 15 is never set. -/
theorem test_not_zero : after (step (atPc 0 [14, 32768, 0])) (fun t => (t.reg 0, t.pc)) = some (32767, 3) := by decide
/-- V125. -/
theorem test_not : after (step (withReg (atPc 0 [14, 32769, 32768]) 0 4660)) (fun t => (t.reg 0, t.reg 1)) =
    some (4660, 28107) := by decide

/-! ## One step: rmem, wmem -/

/-- V135. -/
theorem test_rmem : after (step (withCell (withReg (atPc 0 [15, 32770, 32770]) 2 100) 100 8))
    (fun t => (t.reg 2, t.pc)) = some (8, 3) := by decide
/-- V132 and V138. -/
theorem test_rmem_not_a_value :
    faultOf (step (withCell (atPc 0 [15, 32768, 100]) 100 32768)) = some (.nonValueLoad 0 15 100 32768) ∧
    faultOf (step (withCell (atPc 0 [15, 100, 100]) 100 40000)) = some (.invalidDestination 0 15 100) := by decide
/-- V140. -/
theorem test_wmem : after (step (withReg (withReg (atPc 0 [16, 32768, 32769]) 0 32767) 1 123))
    (fun t => (Memory.read t.mem 32767, Memory.read t.mem 0, t.pc)) = some (123, 16, 3) := by decide
/-- V145. -/
theorem test_wmem_invalid_a : faultOf (step (atPc 0 [16, 32776, 1])) = some (.invalidOperand 0 16 32776) := by decide

/-! ## One step: call, ret -/

/-- V149 and V153. -/
theorem test_call : after (step (withReg (atPc 10 [17, 32768]) 0 7)) (fun t => (t.stack, t.pc)) = some ([12], 7) ∧
    after (step (atPc 32765 [17, 0])) (fun t => (t.stack, t.pc)) = some ([32767], 0) := by decide
/-- V154. -/
theorem test_call_top : faultOf (step (atPc 32766 [17, 0])) = some (.addressOutOfRange 32766 17) := by decide
/-- V156. -/
theorem test_ret : after (step (withStack (atPc 0 [18]) [2, 1])) (fun t => (t.stack, t.pc, t.status)) =
    some ([1], 2, .running) := by decide
/-- V158 and V160. -/
theorem test_ret_empty : after (step (atPc 5 [18])) (fun t => (t.pc, t.status)) = some (6, .halted) ∧
    faultOf (step (withStack (atPc 32767 [18]) [5])) = some (.addressOutOfRange 32767 18) := by decide

/-! ## One step: out, in -/

/-- V163, with output already there. -/
theorem test_out : after (step { withReg (atPc 0 [19, 32768]) 0 4 with output := [9] }) (fun t => (t.output, t.pc)) =
    some ([9, 4], 2) := by decide
/-- V167. -/
theorem test_out_invalid : faultOf (step (atPc 0 [19, 32776])) = some (.invalidOperand 0 19 32776) := by decide
/-- V168. -/
theorem test_in : after (step (withInput (atPc 0 [20, 32768]) [97, 98])) (fun t => (t.reg 0, t.input, t.pc)) =
    some (97, [98], 2) := by decide
/-- V172 and V173. -/
theorem test_in_no_input : stepOutcome (atPc 0 [20, 32768]) = .blocked ∧
    after (step (atPc 0 [20, 32768])) (fun t => (t.pc, t.status)) = some (0, .running) ∧
    faultOf (step (atPc 0 [20, 0])) = some (.invalidDestination 0 20 0) := by decide

/-! ## Fetch faults, loader, hooks, listing -/

/-- V186: UnknownOpcode comes before the address check. -/
theorem test_unknown_opcode_top : faultOf (step (atPc 32767 [22])) = some (.unknownOpcode 32767 22) := by decide

/-- L1, L3 and L5. -/
theorem test_load_words : imageWords [19, 0, 65, 0, 0, 0] = some [19, 65, 0] ∧ imageWords [7, 128] = some [32775] ∧
    imageWords [255, 255] = some [65535] := by decide
/-- L9: an odd number of bytes. -/
theorem test_load_odd : imageWords [19, 0, 65] = none := by decide
/-- L8: 65538 bytes. -/
theorem test_load_too_large (ws : List Word) (h : ws.length = 32769) (image : List Byte)
    (hi : imageWords image = some ws) : load image = .error .programTooLarge := by
  simp [load, hi, h, Config.memCells]

/-- H1: the hook's register write is seen by the operand resolution of the same step. -/
theorem test_hook_register : after (step (withHooks (atPc 0 [19, 32768, 0]) [(0, .script [.setReg 0 (.lit 66)])]))
    (fun t => (t.output, t.pc)) = some ([66], 2) := by decide
/-- H4: a hook that moves the pc; the hook at the new pc does not run in this step. -/
theorem test_hook_moves_pc :
    after (step (withHooks (atPc 0 [21, 21, 21, 0]) [(0, .script [.setPc (.lit 3)]), (3, .script [.setReg 1 (.lit 9)])]))
      (fun t => (t.pc, t.reg 1, t.status)) = some (4, 0, .halted) := by decide
/-- H5: nothing is fetched. -/
theorem test_hook_halts : after (step (withHooks (atPc 0 [19, 65, 0]) [(0, .script [.setStatus .halted])]))
    (fun t => (t.pc, t.output, t.status)) = some (0, [], .halted) := by decide
/-- H7: a hook writes the stack. -/
theorem test_hook_stack : after (step (withHooks (atPc 0 [3, 32768]) [(0, .script [.setStack [.lit 5]])]))
    (fun t => (t.reg 0, t.stack)) = some (5, []) := by decide
/-- H8, one visit: `x[0] <- x[0] + 1`, with the wrap at 32768. -/
theorem test_hook_increments :
    after (step (withHooks (withReg (atPc 0 [6, 0]) 0 32767) [(0, .script [.setReg 0 (.add (.reg 0) (.lit 1))])]))
      (fun t => (t.reg 0, t.pc)) = some (0, 0) := by decide

/-- Q4: lines of the listing. -/
theorem test_listing : listingLine 0 [1, 32768, 4, 19, 32768, 0] = some ("0\tset\tR[0],4", 3) ∧
    listingLine 5 [0] = some ("5\thalt", 1) ∧ listingLine 0 [22, 19, 65] = some ("0\t22", 1) := by decide

/-! ## Witnesses: states and operands that meet the hypotheses of each obligation, clause by clause, at the ends of the
ranges. A statement about all states or words without a hypothesis has none here. -/

theorem witness_DecodeOfEncodeGivesInstruction :
    Instr.isCanonical (.wmem (.lit 32767) (.invalid 32776)) = true ∧
    Instr.isWellFormed (.add (.reg 7) (.lit 32767) (.reg 0)) = true := by decide

theorem witness_EncodeOfDecodeGivesWords : decode [16, 32767, 65535, 8] = .ok (.wmem (.lit 32767) (.invalid 65535), [8]) :=
  rfl

theorem witness_OperandWordClasses :
    (32767 : Word).toNat ≤ 32767 ∧ (32768 ≤ (32768 : Word).toNat ∧ (32775 : Word).toNat ≤ 32775) ∧
    32776 ≤ (32776 : Word).toNat := by decide

theorem witness_SourceOperandResolution :
    (32767 : Word).toNat ≤ 32767 ∧ (32768 : Word).toNat = 32768 + (0 : RegIdx).val ∧
    (32775 : Word).toNat = 32768 + (7 : RegIdx).val ∧ 32776 ≤ (32776 : Word).toNat := by decide

theorem witness_DestinationOperandValidation :
    (32768 : Word).toNat = 32768 + (0 : RegIdx).val ∧ (32775 : Word).toNat = 32768 + (7 : RegIdx).val ∧
    (32767 : Word).toNat ≤ 32767 ∧ 32776 ≤ (32776 : Word).toNat := by decide

/-- An image of three words: the last of them, and the first cell it does not cover. -/
theorem witness_BootState : (∃ s, boot [19, 0, 65, 0, 0, 0] [] [97] = .ok s) ∧
    2 * 2 + 1 < [19, 0, 65, 0, 0, 0].length ∧ [19, 0, 65, 0, 0, 0].length ≤ 2 * 3 ∧ 3 < 32768 ∧ 32767 < 32768 :=
  ⟨⟨_, rfl⟩, by decide⟩

/-- No bytes (L10), 65536 bytes (L7), 65538 bytes (L8), one byte. -/
theorem witness_LoaderAcceptsAndRefuses :
    ([] : List Byte).length % 2 = 0 ∧ ([] : List Byte).length ≤ 65536 ∧
    (List.replicate 65536 (0 : Byte)).length % 2 = 0 ∧ (List.replicate 65536 (0 : Byte)).length ≤ 65536 ∧
    (List.replicate 65538 (0 : Byte)).length % 2 = 0 ∧ 65536 < (List.replicate 65538 (0 : Byte)).length ∧
    ([7] : List Byte).length % 2 = 1 := by
  simp only [List.length_replicate]; decide

theorem witness_StepKeepsInvariant : ∃ s t : State, s.Inv ∧ step s = .next t :=
  ⟨atPc 0 [16, 5, 7], _, by decide, rfl⟩

theorem witness_RunKeepsStreamsAndHookTable : ∃ s t : State, RunsTo 2 s t ∧ s.Inv :=
  ⟨atPc 0 [19, 65, 21], _, rfl, by decide⟩

/-- The words of a four-cell instruction at the highest address it fits, and of an `in` that waits. -/
theorem witness_StepRunsDecodedInstruction :
    (let s := atPc 32763 [9, 32768, 1, 1]
     let i := Instr.add (.reg 0) (.lit 1) (.lit 1)
     s.status = .running ∧ hookAt s.hooks s.pc = none ∧ i.isCanonical = true ∧ Fits i s ∧
       WordsAt s s.pc.toNat (encode i) ∧ awaitsInput i s = false) ∧
    (let s := atPc 32765 [20, 32775]
     let i := Instr.inp (.reg 7)
     s.status = .running ∧ hookAt s.hooks s.pc = none ∧ i.isCanonical = true ∧ Fits i s ∧
       WordsAt s s.pc.toNat (encode i) ∧ awaitsInput i s = true) := by
  refine ⟨⟨rfl, rfl, rfl, by decide, ?_, rfl⟩, ⟨rfl, rfl, rfl, by decide, ?_, by decide⟩⟩ <;> unfold WordsAt <;> decide

theorem witness_UnknownOpcodeFaults :
    let s := atPc 32767 [22]
    s.status = .running ∧ hookAt s.hooks s.pc = none ∧ 21 < (Memory.read s.mem s.pc).toNat := by decide

theorem witness_TopOfMemoryFaults :
    (let s := atPc 32767 [0]
     32767 < s.pc.toNat + Instr.halt.arity + 1 ∧ s.status = .running ∧ hookAt s.hooks s.pc = none ∧
       Memory.read s.mem s.pc = Instr.halt.opcode) ∧
    (let s := atPc 32764 [9, 32768, 1, 1]
     let i := Instr.add (.lit 0) (.lit 0) (.lit 0)
     32767 < s.pc.toNat + i.arity + 1 ∧ s.status = .running ∧ hookAt s.hooks s.pc = none ∧
       Memory.read s.mem s.pc = i.opcode) := by decide

theorem witness_StepOutcomeTellsTheEnd : (atPc 0 [21]).status = .running ∧
    (∃ t, stepOutcome (atPc 0 [21]) = .next t) ∧ (∃ t, stepOutcome (atPc 0 [0]) = .halt t) ∧
    (∃ f, stepOutcome (atPc 0 [22]) = .fault f) ∧ stepOutcome (atPc 0 [20, 32768]) = .blocked :=
  ⟨rfl, ⟨_, rfl⟩, ⟨_, rfl⟩, ⟨_, rfl⟩, rfl⟩

theorem witness_HaltedMachineStays : ({ State.reset with status := .halted } : State).status = .halted := rfl

/-- A hook that halts, one after which an instruction is fetched, one that leaves an unknown opcode at pc. -/
theorem witness_HookRunsOnceBeforeFetch :
    (let s := withHooks (atPc 0 [19, 65]) [(0, .script [.setStatus .halted])]
     s.status = .running ∧ hookAt s.hooks s.pc = some (.script [.setStatus .halted]) ∧
       (Hook.apply (.script [.setStatus .halted]) s).status = .halted) ∧
    (let s := withHooks (atPc 0 [22, 20]) [(0, .script [.setCell (.lit 0) (.lit 6)])]
     let t := Hook.apply (.script [.setCell (.lit 0) (.lit 6)]) s
     s.status = .running ∧ hookAt s.hooks s.pc = some (.script [.setCell (.lit 0) (.lit 6)]) ∧ t.status = .running ∧
       (fetch t).toOption = some (.jmp (.lit 20)) ∧ awaitsInput (.jmp (.lit 20)) t = false) ∧
    (let s := withHooks (atPc 0 [21]) [(0, .script [.setCell .pc (.lit 22)])]
     let t := Hook.apply (.script [.setCell .pc (.lit 22)]) s
     s.status = .running ∧ hookAt s.hooks s.pc = some (.script [.setCell .pc (.lit 22)]) ∧ t.status = .running ∧
       (fetch t).toOption = none) := by decide

theorem witness_HookTouchesOnlyMachineState : (atPc 0 [21]).Inv := by decide

/-- A table whose only entry is at another address (H6), before a step that completes and before one that faults. -/
theorem witness_HooksElsewhereHaveNoEffect :
    (let s := withHooks (atPc 0 [2, 7]) [(1, .script [.setReg 0 (.lit 1)])]
     hookAt s.hooks s.pc = none ∧ after (step s) (fun t => t.pc) = some 2) ∧
    (let s := withHooks (atPc 0 [3, 32768]) [(1, .script [.setReg 0 (.lit 1)])]
     hookAt s.hooks s.pc = none ∧ faultOf (step s) = some (.stackUnderflow 0 3)) := by decide

/-- S3, with its word 21 in cell 12. -/
theorem witness_HookSplicesJump :
    let h := Hook.script [.setCell (.lit 10) (.lit 6), .setCell (.lit 11) (.lit 20), .setCell (.lit 12) (.lit 21)]
    let s := withHooks (atPc 10 [40000, 0, 0]) [(10, h)]
    s.status = .running ∧ s.pc = 10 ∧ hookAt s.hooks 10 = some h := by decide

theorem witness_SetCopiesResolvedValue :
    let s := atPc 32764 []
    s.pc.toNat + 3 ≤ 32767 ∧ s.resolve (.lit 32767) = some 32767 ∧ s.resolve (.reg 7) = some 0 ∧
    firstOperandFault s.pc 1 [(.destination, .lit 32767), (.source, .lit 0)] = some (.invalidDestination 32764 1 32767) ∧
    firstOperandFault s.pc 1 [(.destination, .reg 7), (.source, .invalid 32776)] =
      some (.invalidOperand 32764 1 32776) := by decide

theorem witness_PushPutsValueOnTop :
    let s := atPc 32765 []
    s.pc.toNat + 2 ≤ 32767 ∧ s.resolve (.lit 32767) = some 32767 ∧
    firstOperandFault s.pc 2 [(.source, .invalid 32776)] = some (.invalidOperand 32765 2 32776) := by decide

theorem witness_PopMovesTopToRegister :
    (withStack (atPc 32765 []) [5]).pc.toNat + 2 ≤ 32767 ∧ (withStack (atPc 32765 []) [5]).stack = [5] ∧
    (atPc 32765 []).stack = [] ∧
    firstOperandFault 32765 3 [(.destination, .invalid 32776)] = some (.invalidDestination 32765 3 32776) := by decide

theorem witness_PushThenPopCopiesRegister : (atPc 32763 []).pc.toNat + 4 ≤ 32767 := by decide

/-- The hypotheses that the statements about the instructions of format DSS share, at the highest address such an
instruction fits, for each position that can be illegal. -/
abbrev ThreeOperandWitness (op : Word) : Prop :=
  let s := atPc 32763 []
  s.pc.toNat + 4 ≤ 32767 ∧ s.resolve (.lit 32767) = some 32767 ∧ s.resolve (.reg 7) = some 0 ∧
  firstOperandFault s.pc op [(.destination, .lit 0), (.source, .invalid 65535), (.source, .lit 1)] =
    some (.invalidDestination 32763 op 0) ∧
  firstOperandFault s.pc op [(.destination, .reg 0), (.source, .invalid 65535), (.source, .invalid 32776)] =
    some (.invalidOperand 32763 op 65535) ∧
  firstOperandFault s.pc op [(.destination, .reg 0), (.source, .lit 1), (.source, .invalid 32776)] =
    some (.invalidOperand 32763 op 32776)

theorem witness_EqWritesOneIfEqual : ThreeOperandWitness 4 := by decide
theorem witness_GtWritesOneIfGreaterUnsigned : ThreeOperandWitness 5 := by decide
theorem witness_AddWritesSumModulo32768 : ThreeOperandWitness 9 := by decide
theorem witness_MultWritesProductModulo32768 : ThreeOperandWitness 10 := by decide
theorem witness_AndWritesBitwiseAnd : ThreeOperandWitness 12 := by decide
theorem witness_OrWritesBitwiseOr : ThreeOperandWitness 13 := by decide
/-- With a divisor that is not 0 and one that is. -/
theorem witness_ModWritesRemainder : ThreeOperandWitness 11 ∧ (1 : Value).toNat ≠ 0 ∧ (0 : Value).toNat = 0 := by decide

theorem witness_JmpSetsPc :
    let s := atPc 32765 []
    s.pc.toNat + 2 ≤ 32767 ∧ s.resolve (.lit 32767) = some 32767 ∧
    firstOperandFault s.pc 6 [(.source, .invalid 32776)] = some (.invalidOperand 32765 6 32776) := by decide

/-- A condition that is not 0, one that is, and an illegal target. -/
theorem witness_JtJumpsIfNotZero :
    let s := atPc 32764 []
    s.pc.toNat + 3 ≤ 32767 ∧ s.resolve (.lit 1) = some 1 ∧ (1 : Value).toNat ≠ 0 ∧ s.resolve (.reg 0) = some 0 ∧
    (0 : Value).toNat = 0 ∧ s.resolve (.lit 32767) = some 32767 ∧
    firstOperandFault s.pc 7 [(.source, .lit 0), (.source, .invalid 40000)] = some (.invalidOperand 32764 7 40000) := by
  decide

theorem witness_JfJumpsIfZero :
    let s := atPc 32764 []
    s.pc.toNat + 3 ≤ 32767 ∧ s.resolve (.lit 1) = some 1 ∧ (1 : Value).toNat ≠ 0 ∧ s.resolve (.reg 0) = some 0 ∧
    (0 : Value).toNat = 0 ∧ s.resolve (.lit 32767) = some 32767 ∧
    firstOperandFault s.pc 8 [(.source, .lit 1), (.source, .invalid 40000)] = some (.invalidOperand 32764 8 40000) := by
  decide

theorem witness_NotWritesComplement :
    let s := atPc 32764 []
    s.pc.toNat + 3 ≤ 32767 ∧ s.resolve (.lit 32767) = some 32767 ∧
    firstOperandFault s.pc 14 [(.destination, .reg 0), (.source, .invalid 32776)] =
      some (.invalidOperand 32764 14 32776) := by decide

theorem witness_NotTwiceRestores : (atPc 32761 []).pc.toNat + 6 ≤ 32767 ∧
    (atPc 32761 []).resolve (.lit 32767) = some 32767 := by decide

theorem witness_AddAndMultCommute : (Operand.lit 32767).isSource = true ∧ (Operand.reg 7).isSource = true := by decide

/-- A cell that holds the largest Value, one that holds the smallest word above it, and an illegal destination. -/
theorem witness_RmemReadsCell :
    let s := withCell (withCell (atPc 32764 []) 100 32767) 101 32768
    s.pc.toNat + 3 ≤ 32767 ∧ s.resolve (.lit 100) = some 100 ∧ (Memory.read s.mem 100).toNat ≤ 32767 ∧
    s.resolve (.lit 101) = some 101 ∧ 32767 < (Memory.read s.mem 101).toNat ∧
    firstOperandFault s.pc 15 [(.destination, .lit 100), (.source, .lit 100)] =
      some (.invalidDestination 32764 15 100) := by decide

theorem witness_WmemStoresValue :
    let s := atPc 32764 []
    s.pc.toNat + 3 ≤ 32767 ∧ s.resolve (.lit 32767) = some 32767 ∧ s.resolve (.reg 0) = some 0 ∧
    firstOperandFault s.pc 16 [(.source, .invalid 32776), (.source, .lit 1)] =
      some (.invalidOperand 32764 16 32776) ∧ Memory.wf s.mem := by decide

/-- A `wmem` that ends where it stored, at the highest address a one-cell instruction fits, for every Value; the Values at
the ends of the clauses; an instruction that fits there, and one that does not. -/
theorem witness_StoreIsSeenByNextFetch (v : Value) :
    (∃ t, exec (.wmem (.lit 32766) (.lit v)) (atPc 32763 []) = .next t ∧
      (atPc 32763 []).resolve (.lit 32766) = some t.pc ∧ (atPc 32763 []).resolve (.lit v) = some v ∧
      t.status = .running ∧ hookAt t.hooks t.pc = none ∧ t.pc.toNat + 1 ≤ 32767 ∧ Fits .halt t ∧
      ¬ Fits (.push (.lit 0)) t) ∧
    21 < (22 : Value).toNat ∧ 21 < (32767 : Value).toNat ∧ (0 : Value).toNat ≤ 21 ∧ (21 : Value).toNat ≤ 21 :=
  ⟨⟨_, rfl, rfl, rfl, rfl, rfl, (by decide : (32766 : Addr).toNat + 1 ≤ 32767),
    (by decide : (32766 : Addr).toNat + 0 + 1 ≤ 32767), (by decide : ¬ (32766 : Addr).toNat + 1 + 1 ≤ 32767)⟩, by decide⟩

theorem witness_CallPushesReturnAddress :
    let s := atPc 32765 []
    s.pc.toNat + 2 ≤ 32767 ∧ s.resolve (.lit 32767) = some 32767 ∧
    firstOperandFault s.pc 17 [(.source, .invalid 32776)] = some (.invalidOperand 32765 17 32776) := by decide

theorem witness_RetPopsOrHalts : (atPc 32766 []).pc.toNat + 1 ≤ 32767 ∧
    (withStack (atPc 32766 []) [32767]).stack = [32767] ∧ (atPc 32766 []).stack = [] := by decide

theorem witness_CallThenRetReturns : (atPc 32765 []).pc.toNat + 2 ≤ 32767 ∧
    (atPc 32765 []).resolve (.lit 32766) = some 32766 ∧ (32766 : Value).toNat + 1 ≤ 32767 := by decide

theorem witness_OutAppendsValue :
    let s := atPc 32765 []
    s.pc.toNat + 2 ≤ 32767 ∧ s.resolve (.lit 32767) = some 32767 ∧
    firstOperandFault s.pc 19 [(.source, .invalid 32776)] = some (.invalidOperand 32765 19 32776) := by decide

theorem witness_InTakesNextCharacter : (atPc 32765 []).pc.toNat + 2 ≤ 32767 ∧
    (withInput (atPc 32765 []) [32767]).input = [32767] ∧ (atPc 32765 []).input = [] ∧
    firstOperandFault 32765 20 [(.destination, .lit 0)] = some (.invalidDestination 32765 20 0) := by decide

/-- An `in` that waits behind a hook that has changed a register. -/
theorem witness_BlockedStepChangesNothing :
    let s := withHooks (atPc 32765 [20, 32775]) [(32765, .script [.setReg 0 (.lit 1)])]
    s.status = .running ∧ (hookPhase s).status = .running ∧ (fetch (hookPhase s)).toOption = some (.inp (.reg 7)) ∧
      (hookPhase s).pc.toNat + 2 ≤ 32767 ∧ s.input = [] := by decide

theorem witness_BlockedStepCompletesOnArrival :
    let s := atPc 32765 [20, 32768]
    s.status = .running ∧ (hookPhase s).status = .running ∧ (fetch (hookPhase s)).toOption = some (.inp (.reg 0)) ∧
      (hookPhase s).pc.toNat + 2 ≤ 32767 ∧ s.input = [] := by decide

theorem witness_HaltSetsHalted : (atPc 32766 []).pc.toNat + 1 ≤ 32767 := by decide
theorem witness_NoopOnlyAdvances : (atPc 32766 []).pc.toNat + 1 ≤ 32767 := by decide

/-- A register that a `set`, an `add` and an `in` change. -/
theorem witness_RegistersChangeOnlyAsDestination :
    after (exec (.set (.reg 7) (.lit 5)) (atPc 0 [])) (fun t => decide (t.regs[7] ≠ (atPc 0 []).regs[7])) = some true ∧
    after (exec (.add (.reg 0) (.lit 5) (.lit 1)) (atPc 0 [])) (fun t => decide (t.regs[0] ≠ (atPc 0 []).regs[0])) =
      some true ∧
    after (exec (.inp (.reg 1)) (withInput (atPc 0 []) [9])) (fun t => decide (t.regs[1] ≠ (atPc 0 []).regs[1])) =
      some true := by decide

theorem witness_MemoryChangesOnlyByWmem :
    let s := withCell (atPc 0 []) 32767 9
    after (exec (.wmem (.lit 32767) (.lit 5)) s)
      (fun t => decide (Memory.read t.mem 32767 ≠ Memory.read s.mem 32767)) = some true := by decide

theorem witness_StackChangesOnlyByStackInstructions :
    after (exec (.push (.lit 1)) (atPc 0 [])) (fun t => decide (t.stack ≠ [])) = some true ∧
    after (exec (.call (.lit 1)) (atPc 0 [])) (fun t => decide (t.stack ≠ [])) = some true ∧
    after (exec (.pop (.reg 0)) (withStack (atPc 0 []) [4])) (fun t => decide (t.stack ≠ [4])) = some true ∧
    after (exec .ret (withStack (atPc 0 []) [4])) (fun t => decide (t.stack ≠ [4])) = some true := by decide

theorem witness_StreamsChangeOnlyByInAndOut :
    after (exec (.out (.lit 1)) (atPc 0 [])) (fun t => t.output) = some [1] ∧
    after (exec (.inp (.reg 0)) (withInput (atPc 0 []) [9])) (fun t => t.input) = some [] := by decide

theorem witness_StatusChangesOnlyByHaltOrEmptyRet :
    after (exec .halt (atPc 0 [])) (fun t => decide (t.status ≠ .running)) = some true ∧
    after (exec .ret (atPc 0 [])) (fun t => decide (t.status ≠ .running)) = some true := by decide

/-- A jump that is taken, one that is not, and an instruction that is none. -/
theorem witness_AdvanceLaw :
    after (exec (.jt (.lit 1) (.lit 50)) (atPc 0 [])) (fun t => t.pc) = some 50 ∧
    after (exec (.jt (.lit 0) (.lit 50)) (atPc 0 [])) (fun t => t.pc) = some 3 ∧
    after (exec (.set (.reg 0) (.lit 1)) (atPc 32764 [])) (fun t => t.pc) = some 32767 ∧
    awaitsInput (.set (.reg 0) (.lit 1)) (atPc 32764 []) = false := by decide

end Sys2Proof.Tests
end

section
/-! PROOF. What one instruction and one step can answer (00_scope.md R2, R10; 60_exceptions.md R216): no refusal, and each
of the four outcomes of a Running machine's step with the status it leaves and what `step` answers for it. -/

namespace Sys2Proof.Machine

/-- The meaning of every instruction is the conclusion of checks and an effect, which end in a state or in a fault. -/
theorem exec_eq_conclude (i : Instr) (s : State) : ∃ r, exec i s = conclude r := by
  cases i <;> exact ⟨_, rfl⟩

theorem exec_ne_refused (i : Instr) (s : State) (r : Refusal) : exec i s ≠ .refused r := by
  obtain ⟨x, hx⟩ := exec_eq_conclude i s
  rw [hx]
  exact conclude_ne_refused

/-- Every way a step can go on from the state the hook phase left (R111 to R120). -/
theorem stepOutcome_cases (s : State) :
    ((hookPhase s).status = .halted ∧ stepOutcome s = .halt (hookPhase s)) ∨
    ((hookPhase s).status = .running ∧
      ((∃ f, fetch (hookPhase s) = .error f ∧ stepOutcome s = .fault f) ∨
       (∃ i, fetch (hookPhase s) = .ok i ∧ awaitsInput i (hookPhase s) = true ∧ stepOutcome s = .blocked) ∨
       (∃ i, fetch (hookPhase s) = .ok i ∧ awaitsInput i (hookPhase s) = false ∧
          stepOutcome s = afterEffect (exec i (hookPhase s))))) := by
  cases hu : (hookPhase s).status with
  | halted => exact .inl ⟨rfl, by simp [stepOutcome, hu]⟩
  | running =>
    refine .inr ⟨rfl, ?_⟩
    cases hf : fetch (hookPhase s) with
    | error f => exact .inl ⟨f, rfl, by simp [stepOutcome, hu, hf]⟩
    | ok i =>
      cases hb : awaitsInput i (hookPhase s) with
      | true => exact .inr (.inl ⟨i, rfl, hb, by simp [stepOutcome, hu, hf, hb]⟩)
      | false => exact .inr (.inr ⟨i, rfl, hb, by simp [stepOutcome, hu, hf, hb]⟩)

/-! ## The end of a step (R120) -/

section
variable {r : Result} {t : State}

theorem afterEffect_eq_next : afterEffect r = .next t ↔ r = .next t ∧ t.status = .running := by
  cases r with
  | next u => cases hu : u.status <;> simp [afterEffect, hu] <;> rintro rfl <;> simp [hu]
  | fault f => simp [afterEffect]
  | refused x => simp [afterEffect]

theorem afterEffect_eq_halt : afterEffect r = .halt t ↔ r = .next t ∧ t.status = .halted := by
  cases r with
  | next u => cases hu : u.status <;> simp [afterEffect, hu] <;> rintro rfl <;> simp [hu]
  | fault f => simp [afterEffect]
  | refused x => simp [afterEffect]

theorem afterEffect_eq_refused {x : Refusal} : afterEffect r = .refused x ↔ r = .refused x := by
  cases r with
  | next u => by_cases hu : u.status = .halted <;> simp [afterEffect, hu]
  | fault f => simp [afterEffect]
  | refused y => simp [afterEffect]

end

/-! ## What each outcome says, and what `step` answers for it -/

section
variable {s t : State}

theorem stepOutcome_ne_refused (s : State) (r : Refusal) : stepOutcome s ≠ .refused r := by
  obtain ⟨-, ho⟩ | ⟨-, ⟨f, -, ho⟩ | ⟨i, -, -, ho⟩ | ⟨i, -, -, ho⟩⟩ := stepOutcome_cases s <;> rw [ho]
  · simp
  · simp
  · simp
  · exact fun h => exec_ne_refused i _ r (afterEffect_eq_refused.mp h)

theorem status_of_stepOutcome_next (h : stepOutcome s = .next t) : t.status = .running := by
  obtain ⟨-, ho⟩ | ⟨-, ⟨f, -, ho⟩ | ⟨i, -, -, ho⟩ | ⟨i, -, -, ho⟩⟩ := stepOutcome_cases s <;> rw [ho] at h
  · cases h
  · cases h
  · cases h
  · exact (afterEffect_eq_next.mp h).2

theorem status_of_stepOutcome_halt (h : stepOutcome s = .halt t) : t.status = .halted := by
  obtain ⟨hu, ho⟩ | ⟨-, ⟨f, -, ho⟩ | ⟨i, -, -, ho⟩ | ⟨i, -, -, ho⟩⟩ := stepOutcome_cases s <;> rw [ho] at h
  · cases h
    exact hu
  · cases h
  · cases h
  · exact (afterEffect_eq_halt.mp h).2

theorem step_of_halted (hs : s.status = .halted) : step s = .next s := by
  simp [step, takeStep, hs]

theorem step_of_stepOutcome_next (hs : s.status = .running) (h : stepOutcome s = .next t) : step s = .next t := by
  simp [step, takeStep, hs, h]

theorem step_of_stepOutcome_halt (hs : s.status = .running) (h : stepOutcome s = .halt t) : step s = .next t := by
  simp [step, takeStep, hs, h]

theorem step_of_stepOutcome_fault {f : Fault} (hs : s.status = .running) (h : stepOutcome s = .fault f) :
    step s = .fault f := by
  simp [step, takeStep, hs, h]

theorem step_of_stepOutcome_blocked (hs : s.status = .running) (h : stepOutcome s = .blocked) : step s = .next s := by
  simp [step, takeStep, hs, h]

theorem step_ne_refused (s : State) (r : Refusal) : step s ≠ .refused r := by
  cases hs : s.status with
  | halted => simp [step_of_halted hs]
  | running =>
    cases ho : stepOutcome s with
    | next t => simp [step_of_stepOutcome_next hs ho]
    | halt t => simp [step_of_stepOutcome_halt hs ho]
    | fault f => simp [step_of_stepOutcome_fault hs ho]
    | blocked => simp [step_of_stepOutcome_blocked hs ho]
    | refused x => exact absurd ho (stepOutcome_ne_refused s x)

end

/-- Settles O18: an instruction concludes in a state or a fault, and a step refuses only what an instruction refuses. -/
theorem nothingIsRefused : Obligations.NothingIsRefused :=
  fun s r => ⟨step_ne_refused s r, fun i => exec_ne_refused i s r⟩

/-- Settles O19: each outcome fixes what `step` answers, and `Next` and `Halt` fix the status of the state answered, so no
two outcomes agree on both. -/
theorem stepOutcomeTellsTheEnd : Obligations.StepOutcomeTellsTheEnd := by
  intro s hs
  cases ho : stepOutcome s with
  | next u => simp [step_of_stepOutcome_next hs ho, status_of_stepOutcome_next ho]
  | halt u => simp [step_of_stepOutcome_halt hs ho, status_of_stepOutcome_halt ho]
  | fault f => simp [step_of_stepOutcome_fault hs ho]
  | blocked => simp [step_of_stepOutcome_blocked hs ho]
  | refused x => exact absurd ho (stepOutcome_ne_refused s x)

end Sys2Proof.Machine
end

section
/-! PROOF. The frames of one instruction: which part of the state each may change, and how (10_state.md R23, R28, R31, R34,
R36; 20_memory.md R52; 45_memory_access.md R161). -/

namespace Sys2Proof.Machine

/-- The changes an instruction can make, with the address the pc gets left open: what `exec_next_cases` says with the
instructions grouped by the field they change, so that the frame of a field names only the cases that touch it. -/
inductive ExecChange (s : State) : Instr → State → Prop where
  /-- No field but the pc: `jmp`, `jt`, `jf`, `noop`, and an `in` that waits. -/
  | pcOnly {i : Instr} (p : Addr) : ExecChange s i (s.setPc p)
  | computed {i : Instr} {d : RegIdx} (p : Addr) (v : Value) (hi : ComputesInto i d) :
      ExecChange s i ((s.setPc p).setReg d v)
  | popped {d : RegIdx} {v : Value} {rest : List Value} (p : Addr) (hs : s.stack = v :: rest) :
      ExecChange s (.pop (.reg d)) (((s.setPc p).setStack rest).setReg d v)
  | taken {d : RegIdx} {v : Value} {rest : List Value} (p : Addr) (hs : s.input = v :: rest) :
      ExecChange s (.inp (.reg d)) (((s.setPc p).setInput rest).setReg d v)
  | pushed {a : Operand} {v : Value} (p : Addr) (ha : s.resolve a = some v) :
      ExecChange s (.push a) ((s.setPc p).push v)
  | emitted {a : Operand} {v : Value} (p : Addr) (ha : s.resolve a = some v) :
      ExecChange s (.out a) ((s.setPc p).emit v)
  | called {a : Operand} (p target : Addr) :
      ExecChange s (.call a) (((s.setPc p).push (BitVec.ofNat 15 (s.pc.toNat + 2))).setPc target)
  | stored {a b : Operand} {x : Addr} (p : Addr) (v : Value) (ha : s.resolve a = some x) :
      ExecChange s (.wmem a b) ((s.setPc p).store x (valueWord v))
  | returned {v : Value} {rest : List Value} (hs : s.stack = v :: rest) :
      ExecChange s .ret ((s.setStack rest).setPc v)
  | returnedEmpty (p : Addr) (hs : s.stack = []) : ExecChange s .ret ((s.setPc p).setStatus .halted)
  | halted (p : Addr) : ExecChange s .halt ((s.setPc p).setStatus .halted)

section
variable {i : Instr} {s t : State}

theorem execChange_of_exec (h : exec i s = .next t) : ExecChange s i t := by
  obtain ⟨-, h⟩ := exec_next_cases h
  rcases h with ⟨d, v, rfl, hi⟩ | ⟨d, v, rest, rfl, hs, rfl⟩ | ⟨d, v, rest, rfl, hs, rfl⟩ | ⟨d, rfl, -, rfl⟩ |
    ⟨a, v, rfl, ha, rfl⟩ | ⟨a, v, rfl, ha, rfl⟩ | ⟨a, v, rfl, -, rfl⟩ | ⟨a, v, rfl, -, rfl⟩ |
    ⟨a, b, v, w, rfl, -, -, rfl⟩ | ⟨a, b, v, w, rfl, -, -, rfl⟩ | ⟨a, b, v, w, rfl, ha, -, rfl⟩ |
    ⟨rfl, v, rest, hs, rfl⟩ | ⟨rfl, hs, rfl⟩ | ⟨rfl, rfl⟩ | ⟨rfl, rfl⟩
  · exact .computed _ v hi
  · exact .popped _ hs
  · exact .taken _ hs
  · exact .pcOnly t.pc
  · exact .pushed _ ha
  · exact .emitted _ ha
  · exact .called _ v
  · exact .pcOnly v
  · exact .pcOnly _
  · exact .pcOnly _
  · exact .stored _ w ha
  · exact .returned hs
  · exact .returnedEmpty _ hs
  · exact .halted _
  · exact .pcOnly _

/-- The registers after an instruction: as before, or one written by an instruction with that register as operand a. -/
theorem exec_regs_cases (h : exec i s = .next t) :
    t.regs = s.regs ∨
    ∃ (d : RegIdx) (v : Value), t.regs = s.regs.set d v ∧
      (ComputesInto i d ∨ i = .pop (.reg d) ∨ i = .inp (.reg d)) := by
  cases execChange_of_exec h with
  | computed p v hi => exact .inr ⟨_, v, rfl, .inl hi⟩
  | popped p hs => exact .inr ⟨_, _, rfl, .inr (.inl rfl)⟩
  | taken p hs => exact .inr ⟨_, _, rfl, .inr (.inr rfl)⟩
  | _ => exact .inl rfl

/-- Memory after an instruction: as before, or with the one write of a `wmem`. -/
theorem exec_mem_cases (h : exec i s = .next t) :
    t.mem = s.mem ∨
    ∃ a b x v, i = .wmem a b ∧ s.resolve a = some x ∧ t.mem = Memory.write s.mem x (valueWord v) := by
  cases execChange_of_exec h with
  | stored p v ha => exact .inr ⟨_, _, _, v, rfl, ha, rfl⟩
  | _ => exact .inl rfl

theorem exec_output_cases (h : exec i s = .next t) :
    t.output = s.output ∨ ∃ a v, i = .out a ∧ s.resolve a = some v ∧ t.output = s.output ++ [v] := by
  cases execChange_of_exec h with
  | emitted p ha => exact .inr ⟨_, _, rfl, ha, rfl⟩
  | _ => exact .inl rfl

theorem exec_input_cases (h : exec i s = .next t) :
    t.input = s.input ∨ ∃ d, i = .inp (.reg d) ∧ s.input = t.regs[d] :: t.input := by
  cases execChange_of_exec h with
  | @taken d v rest p hs => exact .inr ⟨d, rfl, by simp [hs]⟩
  | _ => exact .inl rfl

theorem exec_hooks (h : exec i s = .next t) : t.hooks = s.hooks := by
  cases execChange_of_exec h <;> rfl

theorem exec_inv (h : exec i s = .next t) (hs : s.Inv) : t.Inv := by
  obtain hm | ⟨a, b, x, v, -, -, hm⟩ := exec_mem_cases h <;> rw [State.Inv, hm]
  · exact hs
  · exact write_wf x _ hs

end

/-- The cell word of a Value is its number (R161). -/
@[simp] theorem valueWord_toNat (v : Value) : (valueWord v).toNat = v.toNat := by
  rw [valueWord, BitVec.toNat_setWidth_of_le (by decide)]

/-- Settles O54: a register that differs is the one that was written. -/
theorem registersChangeOnlyAsDestination : Obligations.RegistersChangeOnlyAsDestination := by
  intro i s t r h hne
  obtain e | ⟨d, v, e, hi⟩ := exec_regs_cases h
  · exact absurd (by rw [e]) hne
  · have hd : r = d := by
      by_contra hrd
      exact hne (by rw [e]; exact reg_setReg_other s v hrd)
    subst hd
    simpa only [ComputesInto, or_assoc, or_left_comm, or_comm] using hi

/-- Settles O55: a cell that differs is the one that was written, and reads as the Value stored there. -/
theorem memoryChangesOnlyByWmem : Obligations.MemoryChangesOnlyByWmem := by
  intro i s t x h hne
  obtain e | ⟨a, b, y, v, hi, ha, e⟩ := exec_mem_cases h
  · exact absurd (by rw [e]) hne
  · have hy : x = y := by
      by_contra hxy
      exact hne (by rw [e, read_write_other s.mem _ hxy])
    subst hy
    refine ⟨a, b, hi, ha, ?_⟩
    rw [e, read_write_same, valueWord_toNat]
    exact Nat.le_of_lt_succ v.isLt

/-- Settles O56: only four of the changes touch the stack. -/
theorem stackChangesOnlyByStackInstructions : Obligations.StackChangesOnlyByStackInstructions := by
  intro i s t h hne
  cases execChange_of_exec h with
  | pushed p ha => exact .inl ⟨_, _, rfl, ha, rfl⟩
  | called p target => exact .inr (.inl ⟨_, rfl, rfl⟩)
  | @popped d v rest p hs => exact .inr (.inr (.inl ⟨d, rfl, by simp [hs]⟩))
  | returned hs => exact .inr (.inr (.inr ⟨rfl, hs⟩))
  | _ => exact absurd rfl hne

/-- Settles O57. -/
theorem streamsChangeOnlyByInAndOut : Obligations.StreamsChangeOnlyByInAndOut :=
  fun _ _ _ h => ⟨exec_output_cases h, exec_input_cases h, exec_hooks h⟩

/-- Settles O58: only two of the changes touch the status, and both set it to Halted. -/
theorem statusChangesOnlyByHaltOrEmptyRet : Obligations.StatusChangesOnlyByHaltOrEmptyRet := by
  intro i s t h hne
  cases execChange_of_exec h with
  | halted p => exact ⟨rfl, .inl rfl⟩
  | returnedEmpty p hs => exact ⟨rfl, .inr ⟨rfl, hs⟩⟩
  | _ => exact absurd rfl hne

end Sys2Proof.Machine
end

section
/-! PROOF. The reset state, and what every step and every run keeps (10_state.md R38, R39): memory's canonical form, the
output so far, the input still to come, and the hook table. -/

namespace Sys2Proof.Machine

section
variable {n : Nat} {s t : State} {P : State → Prop}

/-- A step keeps what its hook phase and every instruction keep; a Halted or Blocked one changes nothing (R110, R119). -/
theorem step_keeps (hHook : ∀ u, P u → P (hookPhase u)) (hExec : ∀ i u v, exec i u = .next v → P u → P v)
    (h : step s = .next t) (hs : P s) : P t := by
  obtain ⟨-, rfl⟩ | ⟨-, -, rfl⟩ | ⟨i, -, -, -, ⟨-, rfl⟩ | ⟨-, hx⟩⟩ := step_eq_next h
  · exact hs
  · exact hHook s hs
  · exact hs
  · exact hExec i _ t hx (hHook s hs)

theorem runsTo_zero : RunsTo 0 s t ↔ s = t :=
  ⟨Host.Outcome.next.inj, congrArg Host.Outcome.next⟩

theorem runsTo_succ : RunsTo (n + 1) s t ↔ ∃ u, step s = .next u ∧ RunsTo n u t := by
  have hstep : core.step s = step s := rfl
  cases hs : step s <;> simp [RunsTo, Host.Core.run, hstep, hs]

/-- A run keeps what every step keeps. -/
theorem runsTo_keeps (hStep : ∀ u v, step u = .next v → P u → P v) (h : RunsTo n s t) (hs : P s) : P t := by
  induction n generalizing s with
  | zero => exact runsTo_zero.mp h ▸ hs
  | succ n ih =>
    obtain ⟨u, hu, ht⟩ := runsTo_succ.mp h
    exact ih ht (hStep s u hu hs)

end

/-! ## The canonical form of memory -/

theorem hookPhase_inv (s : State) (hs : s.Inv) : (hookPhase s).Inv :=
  hookPhase_keeps s hs (fun _ _ _ h => h) (fun _ a w h => write_wf a w h) (fun _ _ h => h) (fun _ _ h => h)
    (fun _ _ h => h) (fun _ _ h => h)

theorem step_inv {s t : State} (h : step s = .next t) (hs : s.Inv) : t.Inv :=
  step_keeps hookPhase_inv (fun _ _ _ => exec_inv) h hs

/-! ## The streams and the hook table -/

/-- What the surroundings see of the way from `s` to `t` in which nothing arrives: output was added at the end, input was
taken from the front, and the hook table is as it was (R34, R36, R173). -/
def StreamsAdvance (s t : State) : Prop := s.output <+: t.output ∧ t.input <:+ s.input ∧ t.hooks = s.hooks

section
variable {s t u : State}

theorem streamsAdvance_refl (s : State) : StreamsAdvance s s := by
  simp [StreamsAdvance]

theorem StreamsAdvance.trans (h : StreamsAdvance s t) (h' : StreamsAdvance t u) : StreamsAdvance s u := by
  obtain ⟨ho, hi, hh⟩ := h
  obtain ⟨ho', hi', hh'⟩ := h'
  exact ⟨ho.trans ho', hi'.trans hi, hh'.trans hh⟩

/-- No hook can touch the streams or the table (R219). -/
theorem hookPhase_streamsAdvance (h : StreamsAdvance s t) : StreamsAdvance s (hookPhase t) :=
  hookPhase_keeps t h (fun _ _ _ h => h) (fun _ _ _ h => h) (fun _ _ h => h) (fun _ _ h => h) (fun _ _ h => h)
    (fun _ _ h => h)

theorem exec_streamsAdvance {i : Instr} (h : exec i s = .next t) : StreamsAdvance s t := by
  refine ⟨?_, ?_, exec_hooks h⟩
  · obtain e | ⟨a, v, -, -, e⟩ := exec_output_cases h
    · simp [e]
    · exact ⟨[v], e.symm⟩
  · obtain e | ⟨d, -, e⟩ := exec_input_cases h
    · simp [e]
    · exact ⟨[t.regs[d]], e.symm⟩

theorem step_streamsAdvance (h : step s = .next t) : StreamsAdvance s t :=
  step_keeps (fun _ => hookPhase_streamsAdvance) (fun _ _ _ hx hu => hu.trans (exec_streamsAdvance hx)) h
    (streamsAdvance_refl s)

theorem runsTo_streamsAdvance {n : Nat} (h : RunsTo n s t) : StreamsAdvance s t :=
  runsTo_keeps (fun _ _ hu hs => hs.trans (step_streamsAdvance hu)) h (streamsAdvance_refl s)

end

/-- Settles O13: a write keeps the canonical form, and nothing else a hook or an instruction does touches memory. -/
theorem stepKeepsInvariant : Obligations.StepKeepsInvariant :=
  fun _ _ hs h => step_inv h hs

/-- Settles O14, by induction on the length of the run. -/
theorem runKeepsStreamsAndHookTable : Obligations.RunKeepsStreamsAndHookTable := by
  intro n s t h
  obtain ⟨⟨out, ho⟩, ⟨taken, hi⟩, hh⟩ := runsTo_streamsAdvance h
  exact ⟨⟨out, ho.symm⟩, ⟨taken, hi.symm⟩, hh, runsTo_keeps (fun _ _ => step_inv) h⟩

/-- Settles O9. -/
theorem resetState : Obligations.ResetState :=
  ⟨fun r => by simp [State.reset], rfl, rfl, rfl, rfl, rfl⟩

/-- Settles O12. -/
theorem resetMeetsInvariant : Obligations.ResetMeetsInvariant := reset_mem_wf

end Sys2Proof.Machine
end

section
/-! PROOF. What the decoder and the fetch answer, by the opcode word (30_encoding.md R81, R83, R91; 40_dispatch_loop.md R113,
R114; 60_exceptions.md R203, R206): what a step without a hook then is. -/

namespace Sys2Proof

/-- `r` is what reading an instruction with opcode word `op` answers when the words `ws` follow it: an instruction with that
opcode if they are at least as many as its arity, and otherwise the error of a missing operand cell. -/
def ReadsInstr (op : Word) (ws : List Word) (r : Except DecodeError (Instr × List Word)) : Prop :=
  ∃ i : Instr, i.opcode = op ∧ (i.arity ≤ ws.length → ∃ rest, r = .ok (i, rest)) ∧
    (ws.length < i.arity → r = .error (.missingOperandCell op))

section
variable {op : Word}

theorem noOperand_readsInstr {i : Instr} (ws : List Word) (hop : i.opcode = op) (har : i.arity = 0) :
    ReadsInstr op ws (.ok (i, ws)) :=
  ⟨i, hop, fun _ => ⟨ws, rfl⟩, fun h => by omega⟩

theorem oneOperand_readsInstr {mk : Operand → Instr} (ws : List Word) (hop : ∀ a, (mk a).opcode = op)
    (har : ∀ a, (mk a).arity = 1) : ReadsInstr op ws (oneOperand op mk ws) := by
  match ws with
  | [] => exact ⟨mk (.lit 0), hop _, fun h => by simp [har] at h, fun _ => rfl⟩
  | a :: rest => exact ⟨_, hop _, fun _ => ⟨rest, rfl⟩, fun h => by simp [har] at h⟩

theorem twoOperands_readsInstr {mk : Operand → Operand → Instr} (ws : List Word) (hop : ∀ a b, (mk a b).opcode = op)
    (har : ∀ a b, (mk a b).arity = 2) : ReadsInstr op ws (twoOperands op mk ws) := by
  match ws with
  | [] | [_] => exact ⟨mk (.lit 0) (.lit 0), hop _ _, fun h => by simp [har] at h, fun _ => rfl⟩
  | a :: b :: rest => exact ⟨_, hop _ _, fun _ => ⟨rest, rfl⟩, fun h => by simp [har] at h⟩

theorem threeOperands_readsInstr {mk : Operand → Operand → Operand → Instr} (ws : List Word)
    (hop : ∀ a b c, (mk a b c).opcode = op) (har : ∀ a b c, (mk a b c).arity = 3) :
    ReadsInstr op ws (threeOperands op mk ws) := by
  match ws with
  | [] | [_] | [_, _] =>
    exact ⟨mk (.lit 0) (.lit 0) (.lit 0), hop _ _ _, fun h => by simp [har] at h, fun _ => rfl⟩
  | a :: b :: c :: rest => exact ⟨_, hop _ _ _, fun _ => ⟨rest, rfl⟩, fun h => by simp [har] at h; omega⟩

/-- The opcode words 0 to 21 are those of instructions (R81, R82): one line for each format. -/
theorem decodeFrom_readsInstr (ws : List Word) (h : op.toNat ≤ 21) : ReadsInstr op ws (decodeFrom op ws) := by
  obtain ⟨n, hn, rfl⟩ : ∃ n, n ≤ 21 ∧ op = BitVec.ofNat 16 n := ⟨op.toNat, h, by simp⟩
  match n, hn with
  | 0, _ | 18, _ | 21, _ => exact noOperand_readsInstr ws rfl rfl
  | 2, _ | 3, _ | 6, _ | 17, _ | 19, _ | 20, _ => exact oneOperand_readsInstr ws (fun _ => rfl) fun _ => rfl
  | 1, _ | 7, _ | 8, _ | 14, _ | 15, _ | 16, _ => exact twoOperands_readsInstr ws (fun _ _ => rfl) fun _ _ => rfl
  | 4, _ | 5, _ | 9, _ | 10, _ | 11, _ | 12, _ | 13, _ =>
    exact threeOperands_readsInstr ws (fun _ _ _ => rfl) fun _ _ _ => rfl
  | n + 22, hn => omega

/-- Every word above 21 is an unknown opcode (R91). -/
theorem decodeFrom_of_unknown (ws : List Word) (h : 21 < op.toNat) : decodeFrom op ws = .error (.unknownOpcode op) := by
  unfold decodeFrom
  split
  case h_23 => rfl
  all_goals omega

end

theorem arity_le_three (i : Instr) : i.arity ≤ 3 := by
  cases i <;> simp [Instr.arity, Instr.operands]

theorem eq_halt_of_opcode {i : Instr} (h : i.opcode = 0) : i = .halt := by
  cases i with
  | halt => rfl
  | _ => simp [Instr.opcode] at h

theorem eq_noop_of_opcode {i : Instr} (h : i.opcode = 21) : i = .noop := by
  cases i with
  | noop => rfl
  | _ => simp [Instr.opcode] at h

end Sys2Proof

namespace Sys2Proof.Machine

section
variable {s : State} {i : Instr}

/-- A reader of `n` cells gets as many words as there are cells (R26). -/
theorem readUpTo_length (m : Memory) (a n : Nat) : (Memory.readUpTo m a n).length = min n (32768 - a) := by
  induction n generalizing a with
  | zero => simp [Memory.readUpTo]
  | succ n ih =>
    unfold Memory.readUpTo
    split
    · next h =>
      rw [List.length_cons, ih]
      have : a < 32768 := h
      omega
    · next h =>
      have : ¬ a < 32768 := h
      simp only [List.length_nil]
      omega

theorem fetch_of_unknown (h : 21 < (Memory.read s.mem s.pc).toNat) :
    fetch s = .error (.unknownOpcode s.pc (Memory.read s.mem s.pc)) := by
  simp [fetch, decodeFrom_of_unknown _ h, raise]

/-- With a known opcode at pc the fetch gives an instruction with that opcode exactly if its operand cells exist. -/
theorem fetch_of_known (h : (Memory.read s.mem s.pc).toNat ≤ 21) :
    ∃ i : Instr, i.opcode = Memory.read s.mem s.pc ∧ (s.pc.toNat + i.arity ≤ 32767 → fetch s = .ok i) ∧
      (32767 < s.pc.toNat + i.arity → fetch s = .error (.addressOutOfRange s.pc (Memory.read s.mem s.pc))) := by
  obtain ⟨i, hop, hok, hmissing⟩ := decodeFrom_readsInstr (Memory.readUpTo s.mem (s.pc.toNat + 1) 3) h
  rw [readUpTo_length] at hok hmissing
  have hi := arity_le_three i
  refine ⟨i, hop, fun hcells => ?_, fun hcells => ?_⟩
  · obtain ⟨rest, e⟩ := hok (by omega)
    simp [fetch, e]
  · simp [fetch, hmissing (by omega), raise]

/-- The address check of phase 3, for every instruction (R114, R206). -/
theorem exec_of_not_fits (h : ¬ Fits i s) : exec i s = .fault (.addressOutOfRange s.pc i.opcode) := by
  have h' : 32767 < s.pc.toNat + i.arity + 1 := Nat.lt_of_not_le h
  cases i with
  | halt | ret | noop =>
    simp only [exec_halt, exec_ret, exec_noop, runZ_eq_fault]
    exact .inl ⟨h', rfl⟩
  | push | jmp | call | out =>
    simp only [exec_push, exec_jmp, exec_call, exec_out, runS_eq_fault]
    exact .inl ⟨h', rfl⟩
  | pop | inp =>
    simp only [exec_pop, exec_in, runD_eq_fault]
    exact .inl ⟨h', rfl⟩
  | jt | jf | wmem =>
    simp only [exec_jt, exec_jf, exec_wmem, runSS_eq_fault]
    exact .inl ⟨h', rfl⟩
  | set | not | rmem =>
    simp only [exec_set, exec_not, exec_rmem, runDS_eq_fault]
    exact .inl ⟨h', rfl⟩
  | eq | gt | add | mult | mod | and | or =>
    simp only [exec_eq, exec_gt, exec_add, exec_mult, exec_mod, exec_and, exec_or, runDSS_eq_fault]
    exact .inl ⟨h', rfl⟩

/-- An `in` waits only after it has passed the address check (R171). -/
theorem awaitsInput_of_not_fits (h : ¬ Fits i s) : awaitsInput i s = false := by
  unfold awaitsInput
  split
  · have h' : ¬ s.pc.toNat + 2 < Config.memCells := fun hlt => h (Nat.le_of_lt_succ hlt)
    simp [h']
  · rfl

theorem exec_halt_of_fits (h : s.pc.toNat + 1 ≤ 32767) :
    exec .halt s = .next { s with status := .halted, pc := BitVec.ofNat 15 (s.pc.toNat + 1) } := by
  rw [exec_halt]
  exact runZ_eq_next.mpr ⟨h, rfl⟩

theorem exec_noop_of_fits (h : s.pc.toNat + 1 ≤ 32767) :
    exec .noop s = .next { s with pc := BitVec.ofNat 15 (s.pc.toNat + 1) } := by
  rw [exec_noop]
  exact runZ_eq_next.mpr ⟨h, rfl⟩

end

/-! ## Steps with no hook at pc -/

section
variable {s : State} (hs : s.status = .running) (hk : hookAt s.hooks s.pc = none)
include hs hk

theorem step_of_fetch_ok_of_no_hook {i : Instr} (hf : fetch s = .ok i) (hb : awaitsInput i s = false) :
    step s = exec i s := by
  have hu := hookPhase_of_none hk
  rw [step_of_fetch hs (by rwa [hu]) (by rwa [hu]) (by rwa [hu]), hu]

theorem step_of_fetch_error_of_no_hook {f : Fault} (hf : fetch s = .error f) : step s = .fault f := by
  have hu := hookPhase_of_none hk
  exact step_of_fetch_error hs (by rwa [hu]) (by rwa [hu])

theorem step_of_unknown (h : 21 < (Memory.read s.mem s.pc).toNat) :
    step s = .fault (.unknownOpcode s.pc (Memory.read s.mem s.pc)) :=
  step_of_fetch_error_of_no_hook hs hk (fetch_of_unknown h)

/-- With a known opcode at pc the step runs an instruction with that opcode if it fits. If not, the fetch misses operand
cells, or finds them and the instruction fails the address check: the error is the same (R114). -/
theorem step_of_known (h : (Memory.read s.mem s.pc).toNat ≤ 21) :
    ∃ i : Instr, i.opcode = Memory.read s.mem s.pc ∧
      (Fits i s → fetch s = .ok i ∧ (awaitsInput i s = false → step s = exec i s)) ∧
      (¬ Fits i s → step s = .fault (.addressOutOfRange s.pc (Memory.read s.mem s.pc))) := by
  obtain ⟨i, hop, hok, hmissing⟩ := fetch_of_known h
  refine ⟨i, hop, fun hfits => ?_, fun hfits => ?_⟩
  · have hf := hok (by omega)
    exact ⟨hf, step_of_fetch_ok_of_no_hook hs hk hf⟩
  · rcases Nat.lt_or_ge 32767 (s.pc.toNat + i.arity) with hcells | hcells
    · exact step_of_fetch_error_of_no_hook hs hk (hmissing hcells)
    · rw [step_of_fetch_ok_of_no_hook hs hk (hok hcells) (awaitsInput_of_not_fits hfits), exec_of_not_fits hfits, hop]

end

end Sys2Proof.Machine
end

section
/-! PROOF. The two ways a program's words come to memory (20_memory.md R64, R66, R67, R70): the loader puts an image there,
and a `wmem` stores a word that the next step may fetch. -/

namespace Sys2Proof.Machine

/-! ## The loader -/

/-- An image of an even number of bytes has half as many words. -/
theorem imageWords_of_even (image : List Byte) (h : image.length % 2 = 0) :
    ∃ ws, imageWords image = some ws ∧ 2 * ws.length = image.length := by
  match image with
  | [] => exact ⟨[], rfl, rfl⟩
  | [_] => simp at h
  | lo :: hi :: rest =>
    obtain ⟨ws, hws, hlen⟩ := imageWords_of_even rest (by simp only [List.length_cons] at h; omega)
    exact ⟨_, by rw [imageWords, hws]; rfl, by simp; omega⟩

theorem imageWords_of_odd (image : List Byte) (h : image.length % 2 = 1) : imageWords image = none := by
  match image with
  | [] => simp at h
  | [_] => rfl
  | lo :: hi :: rest => rw [imageWords, imageWords_of_odd rest (by simp only [List.length_cons] at h; omega)]; rfl

theorem boot_of_odd {image : List Byte} (hooks : List (Addr × Hook)) (input : List Value) (h : image.length % 2 = 1) :
    boot image hooks input = .error .oddLength := by
  simp [boot, load, imageWords_of_odd image h]

theorem boot_of_words {image : List Byte} {ws : List Word} (hooks : List (Addr × Hook)) (input : List Value)
    (hws : imageWords image = some ws) (h : ws.length ≤ 32768) :
    boot image hooks input = .ok { State.reset with mem := cellsFrom 0 ws, hooks := hooks, input := input } := by
  simp [boot, load, hws, h]

theorem boot_of_too_many_words {image : List Byte} {ws : List Word} (hooks : List (Addr × Hook)) (input : List Value)
    (hws : imageWords image = some ws) (h : 32768 < ws.length) :
    boot image hooks input = .error .programTooLarge := by
  simp [boot, load, hws, Nat.not_le_of_lt h]

/-- Settles O11: an even image has half as many words as bytes, and they load if there are cells for them. -/
theorem loaderAcceptsAndRefuses : Obligations.LoaderAcceptsAndRefuses := by
  refine fun image hooks input => ⟨boot_of_odd hooks input, fun heven hlarge => ?_, fun heven hsize => ?_⟩
  · obtain ⟨ws, hws, hlen⟩ := imageWords_of_even image heven
    exact boot_of_too_many_words hooks input hws (by omega)
  · obtain ⟨ws, hws, hlen⟩ := imageWords_of_even image heven
    exact ⟨_, boot_of_words hooks input hws (by omega), cellsFrom_wf 0 (by simp only [Config.memCells]; omega)⟩

/-! ## A word stored where the next step fetches -/

/-- After a `wmem` the cell it names holds its Value (R161). -/
theorem read_of_exec_wmem {s t : State} {a b : Operand} {x : Addr} {v : Value} (h : exec (.wmem a b) s = .next t)
    (ha : s.resolve a = some x) (hb : s.resolve b = some v) : Memory.read t.mem x = valueWord v := by
  rw [exec_wmem, runSS_eq_next] at h
  obtain ⟨-, x', v', ha', hb', e⟩ := h
  obtain rfl : x = x' := Option.some.inj (ha.symm.trans ha')
  obtain rfl : v = v' := Option.some.inj (hb.symm.trans hb')
  cases e
  exact read_write_same _ _ _

/-- Settles O44: the opcode word the step reads at pc is the one the `wmem` left there; 0 and 21 are `halt` and `noop`, of
which only the one cell is fetched. -/
theorem storeIsSeenByNextFetch : Obligations.StoreIsSeenByNextFetch := by
  intro s t a b v h ha hb hs hk
  have hread : Memory.read t.mem t.pc = valueWord v := read_of_exec_wmem h ha hb
  have hknown := step_of_known hs hk
  rw [hread, valueWord_toNat] at hknown
  refine ⟨fun hv => ?_, hknown, fun hv hpc => ?_, fun hv hpc => ?_⟩
  · have := step_of_unknown hs hk (by rwa [hread, valueWord_toNat])
    rwa [hread] at this
  · subst hv
    obtain ⟨i, hop, hrun, -⟩ := hknown (by decide)
    obtain rfl := eq_halt_of_opcode hop
    rw [(hrun hpc).2 rfl, exec_halt_of_fits hpc]
  · subst hv
    obtain ⟨i, hop, hrun, -⟩ := hknown (by decide)
    obtain rfl := eq_noop_of_opcode hop
    rw [(hrun hpc).2 rfl, exec_noop_of_fits hpc]

end Sys2Proof.Machine
end

section
/-! PROOF. The encoding (30_encoding.md R80 to R94): decoder and encoder undo each other, an operand word's class decides what
`val` and `reg` answer for it, and an instruction that reaches the top of memory faults whatever its operands. -/

namespace Sys2Proof

/-! ## The decoder and the encoder -/

section
variable {op : Word} {ws rest : List Word} {i : Instr}

/-- `i` has opcode `op`, and its operands are what the words that `ws` has before `rest` stand for (R80, R85). -/
def ReadsOperands (op : Word) (ws rest : List Word) (i : Instr) : Prop :=
  i.opcode = op ∧ ∃ as, ws = as ++ rest ∧ i.operands.map Prod.snd = as.map decodeOperand

/-- The cells of such an instruction are the words that were read: no bit of an operand word is dropped. -/
theorem ReadsOperands.encode_eq (h : ReadsOperands op ws rest i) : encode i ++ rest = op :: ws := by
  obtain ⟨rfl, as, rfl, hargs⟩ := h
  have hcells : i.operands.map (fun o => encodeOperand o.2) = as := by
    calc i.operands.map (fun o => encodeOperand o.2)
        = (i.operands.map Prod.snd).map encodeOperand := by simp
      _ = as := by simp [hargs, Function.comp_def, encodeOperand_decodeOperand]
  simp [encode, hcells]

theorem ReadsOperands.isCanonical (h : ReadsOperands op ws rest i) : i.isCanonical = true := by
  obtain ⟨-, as, -, hargs⟩ := h
  refine List.all_eq_true.mpr fun o ho => ?_
  have hmem : o.2 ∈ as.map decodeOperand := hargs ▸ List.mem_map_of_mem ho
  obtain ⟨w, -, hw⟩ := List.mem_map.mp hmem
  exact hw ▸ decodeOperand_canonical w

theorem noOperand_readsOperands {j : Instr} (hop : j.opcode = op) (hargs : j.operands = [])
    (h : Except.ok (j, ws) = (.ok (i, rest) : Except DecodeError _)) : ReadsOperands op ws rest i := by
  cases h
  exact ⟨hop, [], rfl, by simp [hargs]⟩

theorem oneOperand_readsOperands {mk : Operand → Instr} (hop : ∀ a, (mk a).opcode = op)
    (hargs : ∀ a, (mk a).operands.map Prod.snd = [a]) (h : oneOperand op mk ws = .ok (i, rest)) :
    ReadsOperands op ws rest i := by
  obtain ⟨a, rfl, rfl⟩ := oneOperand_eq_ok.mp h
  exact ⟨hop _, [a], rfl, hargs _⟩

theorem twoOperands_readsOperands {mk : Operand → Operand → Instr} (hop : ∀ a b, (mk a b).opcode = op)
    (hargs : ∀ a b, (mk a b).operands.map Prod.snd = [a, b]) (h : twoOperands op mk ws = .ok (i, rest)) :
    ReadsOperands op ws rest i := by
  obtain ⟨a, b, rfl, rfl⟩ := twoOperands_eq_ok.mp h
  exact ⟨hop _ _, [a, b], rfl, hargs _ _⟩

theorem threeOperands_readsOperands {mk : Operand → Operand → Operand → Instr} (hop : ∀ a b c, (mk a b c).opcode = op)
    (hargs : ∀ a b c, (mk a b c).operands.map Prod.snd = [a, b, c]) (h : threeOperands op mk ws = .ok (i, rest)) :
    ReadsOperands op ws rest i := by
  obtain ⟨a, b, c, rfl, rfl⟩ := threeOperands_eq_ok.mp h
  exact ⟨hop _ _ _, [a, b, c], rfl, hargs _ _ _⟩

/-- Whatever the decoder accepts it reads by one of the four operand counts (R83). -/
theorem decodeFrom_readsOperands (h : decodeFrom op ws = .ok (i, rest)) : ReadsOperands op ws rest i := by
  rcases Nat.lt_or_ge 21 op.toNat with hop | hop
  · simp [decodeFrom_of_unknown ws hop] at h
  obtain ⟨n, hn, rfl⟩ : ∃ n, n ≤ 21 ∧ op = BitVec.ofNat 16 n := ⟨op.toNat, hop, by simp⟩
  match n, hn with
  | 0, _ | 18, _ | 21, _ => exact noOperand_readsOperands rfl rfl h
  | 2, _ | 3, _ | 6, _ | 17, _ | 19, _ | 20, _ => exact oneOperand_readsOperands (fun _ => rfl) (fun _ => rfl) h
  | 1, _ | 7, _ | 8, _ | 14, _ | 15, _ | 16, _ => exact twoOperands_readsOperands (fun _ _ => rfl) (fun _ _ => rfl) h
  | 4, _ | 5, _ | 9, _ | 10, _ | 11, _ | 12, _ | 13, _ =>
    exact threeOperands_readsOperands (fun _ _ _ => rfl) (fun _ _ _ => rfl) h
  | n + 22, hn => omega

end

/-- With each canonical operand written as what its word stands for, this is a row of the opcode table (R82, R84). -/
theorem decode_encode {i : Instr} (rest : List Word) (h : i.isCanonical = true) :
    decode (encode i ++ rest) = .ok (i, rest) := by
  have hargs : ∀ o ∈ i.operands, ∃ w, decodeOperand w = o.2 :=
    fun o ho => ⟨encodeOperand o.2, decodeOperand_encodeOperand (List.all_eq_true.mp h o ho)⟩
  cases i with
  | halt | ret | noop => rfl
  | push | pop | jmp | call | out | inp =>
    simp only [Instr.operands, List.forall_mem_cons] at hargs
    obtain ⟨⟨a, rfl⟩, -⟩ := hargs
    simp only [encode, Instr.operands, List.map, encodeOperand_decodeOperand]
    rfl
  | set | jt | jf | not | rmem | wmem =>
    simp only [Instr.operands, List.forall_mem_cons] at hargs
    obtain ⟨⟨a, rfl⟩, ⟨b, rfl⟩, -⟩ := hargs
    simp only [encode, Instr.operands, List.map, encodeOperand_decodeOperand]
    rfl
  | eq | gt | add | mult | mod | and | or =>
    simp only [Instr.operands, List.forall_mem_cons] at hargs
    obtain ⟨⟨a, rfl⟩, ⟨b, rfl⟩, ⟨c, rfl⟩, -⟩ := hargs
    simp only [encode, Instr.operands, List.map, encodeOperand_decodeOperand]
    rfl

/-! ## Operand words by class -/

section
variable {w : Word}

theorem isCanonical_of_isSource {o : Operand} (h : o.isSource = true) : o.isCanonical = true := by
  cases o with
  | lit | reg => rfl
  | invalid => cases h

theorem isCanonical_of_isDestination {o : Operand} (h : o.isDestination = true) : o.isCanonical = true := by
  cases o with
  | reg => rfl
  | lit | invalid => cases h

theorem decodeOperand_of_literal (h : w.toNat ≤ 32767) :
    ∃ v : Value, decodeOperand w = .lit v ∧ v.toNat = w.toNat := by
  refine ⟨w.setWidth 15, if_pos (Nat.lt_succ_of_le h), ?_⟩
  rw [BitVec.toNat_setWidth]
  omega

theorem decodeOperand_of_register {r : RegIdx} (h : w.toNat = 32768 + r.val) : decodeOperand w = .reg r := by
  obtain rfl : w = encodeOperand (.reg r) := by
    apply BitVec.eq_of_toNat_eq
    simp only [encodeOperand, BitVec.toNat_ofNat, Config.regBase]
    omega
  exact decodeOperand_encodeOperand rfl

theorem decodeOperand_of_invalid (h : 32776 ≤ w.toNat) : decodeOperand w = .invalid w :=
  decodeOperand_encodeOperand (o := .invalid w) (decide_eq_true h)

end

/-! ## Opcodes -/

/-- Reading an instruction never answers that the opcode is unknown. -/
theorem ReadsInstr.ne_unknownOpcode {op w : Word} {ws : List Word} {r : Except DecodeError (Instr × List Word)}
    (h : ReadsInstr op ws r) : r ≠ .error (.unknownOpcode w) := by
  obtain ⟨i, -, hok, hmissing⟩ := h
  rcases Nat.lt_or_ge ws.length i.arity with hlen | hlen
  · simp [hmissing hlen]
  · obtain ⟨rest, e⟩ := hok hlen
    simp [e]

theorem decodeFrom_eq_unknownOpcode {op : Word} {ws : List Word} :
    decodeFrom op ws = .error (.unknownOpcode op) ↔ 21 < op.toNat := by
  refine ⟨fun h => ?_, decodeFrom_of_unknown ws⟩
  by_contra hop
  exact (decodeFrom_readsInstr ws (Nat.le_of_not_lt hop)).ne_unknownOpcode h

/-- The opcode alone decides the arity (R83). -/
theorem tableArity_opcode (i : Instr) : Laws.EncodingShape.tableArity[i.opcode.toNat]? = some i.arity := by
  cases i <;> rfl

theorem opcode_toNat_le (i : Instr) : i.opcode.toNat ≤ 21 := by
  obtain ⟨h, -⟩ := List.getElem?_eq_some_iff.mp (tableArity_opcode i)
  exact Nat.le_of_lt_succ h

theorem arity_eq_of_opcode_eq {i j : Instr} (h : i.opcode = j.opcode) : i.arity = j.arity :=
  Option.some.inj <| by rw [← tableArity_opcode, ← tableArity_opcode, h]

end Sys2Proof

namespace Sys2Proof.Machine

/-- The operand checks of an instruction accept canonical operands only. -/
theorem isCanonical_of_no_operandFault {p : Addr} {op : Word} {os : List (Role × Operand)}
    (h : firstOperandFault p op os = none) : ∀ o ∈ os, o.2.isCanonical = true := by
  induction os with
  | nil => simp
  | cons x os ih =>
    obtain ⟨_ | _, o⟩ := x
    · obtain ⟨ho, hos⟩ : o.isDestination = true ∧ firstOperandFault p op os = none := by
        simpa [firstOperandFault, ite_eq_iff] using h
      exact List.forall_mem_cons.mpr ⟨isCanonical_of_isDestination ho, ih hos⟩
    · obtain ⟨ho, hos⟩ : o.isSource = true ∧ firstOperandFault p op os = none := by
        simpa [firstOperandFault, ite_eq_iff] using h
      exact List.forall_mem_cons.mpr ⟨isCanonical_of_isSource ho, ih hos⟩

theorem isCanonical_of_isWellFormed {i : Instr} (h : i.isWellFormed = true) : i.isCanonical = true :=
  List.all_eq_true.mpr (isCanonical_of_no_operandFault ((firstOperandFault_eq_none 0 0 i).mpr h))

/-- A raw word that names no register is reported as it stands (R87, R210). -/
theorem checkDestination_decodeOperand_of_none {s : State} {op w : Word}
    (h : Operand.register (decodeOperand w) = none) :
    s.checkDestination op (decodeOperand w) = .error (.invalidDestination s.pc op w) := by
  rw [checkDestination_of_none h, encodeOperand_decodeOperand]

/-- A step at an opcode whose instruction would reach the top of memory faults: what it fetches has the same arity (R94). -/
theorem step_of_not_fits {s : State} {i : Instr} (hs : s.status = .running) (hk : hookAt s.hooks s.pc = none)
    (hop : Memory.read s.mem s.pc = i.opcode) (h : ¬ Fits i s) : step s = .fault (.addressOutOfRange s.pc i.opcode) := by
  obtain ⟨j, hj, -, hstep⟩ := step_of_known hs hk (hop ▸ opcode_toNat_le i)
  rw [hop] at hj hstep
  exact hstep (by rwa [Fits, arity_eq_of_opcode_eq hj])

/-- Settles O1: a canonical operand is what its word stands for, and the operand checks accept canonical ones only. -/
theorem decodeOfEncodeGivesInstruction : Obligations.DecodeOfEncodeGivesInstruction :=
  ⟨fun _ rest h => decode_encode rest h, fun _ => isCanonical_of_isWellFormed⟩

/-- Settles O2: by the operand count, what was read is the opcode word and the words of the operands. -/
theorem encodeOfDecodeGivesWords : Obligations.EncodeOfDecodeGivesWords := by
  intro ws rest i h
  cases ws with
  | nil => cases h
  | cons op ws =>
    have hreads := decodeFrom_readsOperands h
    exact ⟨hreads.encode_eq, hreads.isCanonical⟩

/-- Settles O3: each row is the decoder's own case for that opcode. -/
theorem opcodeTableDecodes : Obligations.OpcodeTableDecodes := by
  intro a b c rest
  and_intros <;> rfl

/-- Settles O4, by evaluation of the decoder. -/
theorem sampleWordsDecode : Obligations.SampleWordsDecode := by
  unfold Obligations.SampleWordsDecode
  and_intros <;> rfl

/-- Settles O5. -/
theorem opcodeUnknownExactlyAboveTwentyOne : Obligations.OpcodeUnknownExactlyAboveTwentyOne :=
  fun _ _ => decodeFrom_eq_unknownOpcode

/-- Settles O6: the register of the second class is the one at that distance from the first register word. -/
theorem operandWordClasses : Obligations.OperandWordClasses :=
  fun w => ⟨decodeOperand_of_literal,
    fun ⟨hlo, hhi⟩ => ⟨⟨w.toNat - 32768, by omega⟩, decodeOperand_of_register (Nat.add_sub_cancel' hlo).symm, rfl⟩,
    decodeOperand_of_invalid⟩

/-- Settles O7, one class of words after the other. -/
theorem sourceOperandResolution : Obligations.SourceOperandResolution := by
  refine fun s op w => ⟨fun h => ?_, fun r h => ?_, fun h => ?_⟩
  · obtain ⟨v, e, hv⟩ := decodeOperand_of_literal h
    exact ⟨v, checkSource_of_some (by rw [e]; rfl), hv⟩
  · exact checkSource_of_some (by rw [decodeOperand_of_register h]; rfl)
  · rw [decodeOperand_of_invalid h]
    exact checkSource_of_none rfl

/-- Settles O8: of the three classes only a register word is accepted. -/
theorem destinationOperandValidation : Obligations.DestinationOperandValidation := by
  refine fun s op w => ⟨fun r h => ?_, fun h => checkDestination_decodeOperand_of_none ?_⟩
  · exact checkDestination_of_some (by rw [decodeOperand_of_register h]; rfl)
  · rcases h with h | h
    · obtain ⟨v, e, -⟩ := decodeOperand_of_literal h
      rw [e]; rfl
    · rw [decodeOperand_of_invalid h]; rfl

/-- Settles O17: the address check comes before the operand checks, and the fetch misses cells with the same error. -/
theorem topOfMemoryFaults : Obligations.TopOfMemoryFaults := by
  intro s i h
  have hfits : ¬ Fits i s := Nat.not_le_of_lt h
  exact ⟨exec_of_not_fits hfits, fun hs hk hop => step_of_not_fits hs hk hop hfits⟩

end Sys2Proof.Machine
end

section
/-! PROOF. The dispatch loop (40_dispatch_loop.md R110 to R123; 60_exceptions.md R212, R217 to R220): what a step runs, with
and without a hook at pc, where the pc is after an instruction, and when an instruction faults. -/

namespace Sys2Proof.Machine

/-! ## The hook phase and the fetch -/

section
variable {s : State} {i : Instr}

theorem hookPhase_of_some {h : Hook} (hk : hookAt s.hooks s.pc = some h) : hookPhase s = h.apply s := by
  simp [hookPhase, hk]

/-- A hook that leaves status Halted ends the step (R112, R220). -/
theorem step_of_hook_halts (hs : s.status = .running) (hu : (hookPhase s).status = .halted) :
    step s = .next (hookPhase s) :=
  step_of_stepOutcome_halt hs (by simp [stepOutcome, hu])

/-- With no entry at pc, the step of an `in` that waits answers the state it began in (R119; log 7). -/
theorem step_of_blocked_of_no_hook (hs : s.status = .running) (hk : hookAt s.hooks s.pc = none) (hf : fetch s = .ok i)
    (hb : awaitsInput i s = true) : step s = .next s := by
  have hu := hookPhase_of_none hk
  exact (step_of_blocked hs (by rwa [hu]) (by rwa [hu]) (by rwa [hu])).2

/-- The fetch gives the canonical instruction whose words stand at pc (R113, R114). -/
theorem fetch_of_wordsAt (hi : i.isCanonical = true) (hw : WordsAt s s.pc.toNat (encode i)) : fetch s = .ok i := by
  have hop : Memory.read s.mem s.pc = i.opcode := by
    obtain ⟨-, h⟩ := hw 0 (by simp [encode])
    simpa [encode] using h
  obtain ⟨rest, hrest⟩ := readUpTo_prefix s.mem (i.operands.map fun o => encodeOperand o.2) (s.pc.toNat + 1) 3
    (by rw [List.length_map]; exact arity_le_three i)
    (fun k hk => by
      have h := hw (k + 1) (by simpa [encode] using hk)
      simpa [encode, Nat.add_assoc, Nat.add_comm 1 k] using h)
  have hdecode : decodeFrom i.opcode ((i.operands.map fun o => encodeOperand o.2) ++ rest) = .ok (i, rest) :=
    decode_encode rest hi
  simp [fetch, hop, hrest, hdecode]

end

/-- Settles O21: the three ways on from the state the hook left, which is the state the fetch reads. -/
theorem hookRunsOnceBeforeFetch : Obligations.HookRunsOnceBeforeFetch := by
  intro s h hs hk
  rw [← hookPhase_of_some hk]
  exact ⟨step_of_hook_halts hs, fun _ => step_of_fetch hs, fun _ => step_of_fetch_error hs⟩

/-- Settles O15: the words at pc are read and decoded to that instruction. -/
theorem stepRunsDecodedInstruction : Obligations.StepRunsDecodedInstruction := by
  intro s i hs hk hi _ hw
  have hf := fetch_of_wordsAt hi hw
  exact ⟨step_of_fetch_ok_of_no_hook hs hk hf, step_of_blocked_of_no_hook hs hk hf⟩

/-! ## Another hook table -/

/-- The outcome with another hook table in the next state. -/
def Result.setHooks (hs : List (Addr × Hook)) : Result → Result
  | .next t => .next (t.setHooks hs)
  | .fault f => .fault f
  | .refused r => .refused r

section
variable {s : State} {op : Word} {a b c : Operand} {hs : List (Addr × Hook)}

theorem conclude_map_setHooks (r : Except Fault State) :
    conclude ((State.setHooks · hs) <$> r) = Result.setHooks hs (conclude r) := by
  cases r <;> rfl

@[simp] theorem nextPc_setHooks (n : Nat) : (s.setHooks hs).nextPc op n = s.nextPc op n := rfl

@[simp] theorem resolve_setHooks (o : Operand) : (s.setHooks hs).resolve o = s.resolve o := by
  cases o <;> rfl

@[simp] theorem checkSource_setHooks (o : Operand) : (s.setHooks hs).checkSource op o = s.checkSource op o := by
  simp [State.checkSource]

@[simp] theorem checkDestination_setHooks (o : Operand) :
    (s.setHooks hs).checkDestination op o = s.checkDestination op o := rfl

theorem setPc_setHooks (p : Addr) : (s.setHooks hs).setPc p = (s.setPc p).setHooks hs := rfl

theorem setReg_setHooks (d : RegIdx) (v : Value) : (s.setHooks hs).setReg d v = (s.setReg d v).setHooks hs := rfl

/-! No check of a format reads the hook table, so a format's outcome differs by the table only if its effect's does. -/

theorem runZ_setHooks {e e' : State → Except Fault State}
    (he : ∀ t : State, e' (t.setHooks hs) = (State.setHooks · hs) <$> e t) :
    runZ op (s.setHooks hs) e' = Result.setHooks hs (runZ op s e) := by
  simp [runZ, ← conclude_map_setHooks, setPc_setHooks, he]

theorem runS_setHooks {e e' : Value → State → Except Fault State}
    (he : ∀ v (t : State), e' v (t.setHooks hs) = (State.setHooks · hs) <$> e v t) :
    runS op a (s.setHooks hs) e' = Result.setHooks hs (runS op a s e) := by
  simp [runS, ← conclude_map_setHooks, setPc_setHooks, he]

theorem runSS_setHooks {e e' : Value → Value → State → Except Fault State}
    (he : ∀ v w (t : State), e' v w (t.setHooks hs) = (State.setHooks · hs) <$> e v w t) :
    runSS op a b (s.setHooks hs) e' = Result.setHooks hs (runSS op a b s e) := by
  simp [runSS, ← conclude_map_setHooks, setPc_setHooks, he]

theorem runD_setHooks {e e' : RegIdx → State → Except Fault State}
    (he : ∀ d (t : State), e' d (t.setHooks hs) = (State.setHooks · hs) <$> e d t) :
    runD op a (s.setHooks hs) e' = Result.setHooks hs (runD op a s e) := by
  simp [runD, ← conclude_map_setHooks, setPc_setHooks, he]

theorem runDS_setHooks (result : Value → Except Fault Value) :
    runDS op a b (s.setHooks hs) result = Result.setHooks hs (runDS op a b s result) := by
  simp [runDS, ← conclude_map_setHooks, setPc_setHooks, setReg_setHooks]

theorem runDSS_setHooks (result : Value → Value → Except Fault Value) :
    runDSS op a b c (s.setHooks hs) result = Result.setHooks hs (runDSS op a b c s result) := by
  simp [runDSS, ← conclude_map_setHooks, setPc_setHooks, setReg_setHooks]

end

/-- No instruction reads the hook table (R36). -/
theorem exec_setHooks (i : Instr) (s : State) (hs : List (Addr × Hook)) :
    exec i (s.setHooks hs) = Result.setHooks hs (exec i s) := by
  cases i with
  | halt | noop =>
    simp only [exec_halt, exec_noop]
    exact runZ_setHooks fun _ => rfl
  | ret =>
    simp only [exec_ret]
    refine runZ_setHooks fun t => ?_
    cases ht : t.stack <;> simp only [setHooks_stack, ht] <;> rfl
  | push | jmp | call | out =>
    simp only [exec_push, exec_jmp, exec_call, exec_out]
    exact runS_setHooks fun _ _ => rfl
  | pop =>
    simp only [exec_pop]
    refine runD_setHooks fun d t => ?_
    cases ht : t.stack <;> simp only [setHooks_stack, ht] <;> rfl
  | inp =>
    simp only [exec_in]
    refine runD_setHooks fun d t => ?_
    cases ht : t.input <;> simp only [setHooks_input, ht] <;> rfl
  | jt | jf =>
    simp only [exec_jt, exec_jf]
    refine runSS_setHooks fun v w t => ?_
    cases valueIsTrue v <;> rfl
  | wmem =>
    simp only [exec_wmem]
    exact runSS_setHooks fun _ _ _ => rfl
  | set | not | rmem => exact runDS_setHooks _
  | eq | gt | add | mult | mod | and | or => exact runDSS_setHooks _

theorem fetch_setHooks (s : State) (hs : List (Addr × Hook)) : fetch (s.setHooks hs) = fetch s := rfl

theorem awaitsInput_setHooks (i : Instr) (s : State) (hs : List (Addr × Hook)) :
    awaitsInput i (s.setHooks hs) = awaitsInput i s := rfl

/-- With no entry at pc in either table, a step reads neither (R112, R218). -/
theorem step_setHooks {s : State} {hs : List (Addr × Hook)} (hk : hookAt s.hooks s.pc = none)
    (hk' : hookAt hs s.pc = none) : step (s.setHooks hs) = Result.setHooks hs (step s) := by
  have hk' : hookAt (s.setHooks hs).hooks (s.setHooks hs).pc = none := hk'
  cases hst : s.status with
  | halted =>
    have hst' : (s.setHooks hs).status = .halted := hst
    rw [step_of_halted hst, step_of_halted hst', Result.setHooks]
  | running =>
    have hst' : (s.setHooks hs).status = .running := hst
    cases hf : fetch s with
    | error f =>
      have hf' := (fetch_setHooks s hs).trans hf
      rw [step_of_fetch_error_of_no_hook hst hk hf, step_of_fetch_error_of_no_hook hst' hk' hf', Result.setHooks]
    | ok i =>
      have hf' := (fetch_setHooks s hs).trans hf
      have hb' := awaitsInput_setHooks i s hs
      cases hb : awaitsInput i s with
      | true =>
        rw [step_of_blocked_of_no_hook hst hk hf hb, step_of_blocked_of_no_hook hst' hk' hf' (hb'.trans hb),
          Result.setHooks]
      | false =>
        rw [step_of_fetch_ok_of_no_hook hst hk hf hb, step_of_fetch_ok_of_no_hook hst' hk' hf' (hb'.trans hb),
          exec_setHooks]

/-- Settles O23: the empty table has no entry at pc either. -/
theorem hooksElsewhereHaveNoEffect : Obligations.HooksElsewhereHaveNoEffect := by
  intro s hk
  rw [step_setHooks hk rfl]
  exact ⟨fun t ht => by rw [ht, Result.setHooks], fun f hf => by rw [hf, Result.setHooks]⟩

/-! ## The advance of the pc (R123) -/

section
variable {i : Instr} {s t : State}

theorem not_transfers_of_computesInto {d : RegIdx} (hi : ComputesInto i d) (target : Addr) :
    ¬ Transfers i s target := by
  rcases hi with ⟨b, rfl⟩ | ⟨b, c, rfl⟩ | ⟨b, c, rfl⟩ | ⟨b, c, rfl⟩ | ⟨b, c, rfl⟩ | ⟨b, c, rfl⟩ | ⟨b, c, rfl⟩ |
    ⟨b, c, rfl⟩ | ⟨b, rfl⟩ | ⟨b, rfl⟩ <;> simp [Transfers]

theorem valueIsTrue_iff {v : Value} : valueIsTrue v = true ↔ v ≠ 0 := by
  simp [valueIsTrue, BitVec.toNat_eq]

/-- An `in` that fits and finds no character waits. -/
theorem awaitsInput_of_no_input {d : RegIdx} (hfits : s.pc.toNat + 2 ≤ 32767) (h : s.input = []) :
    awaitsInput (.inp (.reg d)) s = true := by
  simp [awaitsInput, h, Nat.lt_succ_of_le hfits]

/-- The pc after each next state of `exec_next_cases` is the target of a transfer or the advanced address (R123). -/
theorem exec_pc_cases (h : exec i s = .next t) (hb : awaitsInput i s = false) :
    (∃ target, Transfers i s target ∧ t.pc = target) ∨
    ((∀ target, ¬ Transfers i s target) ∧ t.pc = BitVec.ofNat 15 (s.pc.toNat + i.arity + 1)) := by
  obtain ⟨hfits, h⟩ := exec_next_cases h
  rcases h with ⟨d, v, rfl, hi⟩ | ⟨d, v, rest, rfl, hs, rfl⟩ | ⟨d, v, rest, rfl, hs, rfl⟩ | ⟨d, rfl, hs, rfl⟩ |
    ⟨a, v, rfl, ha, rfl⟩ | ⟨a, v, rfl, ha, rfl⟩ | ⟨a, v, rfl, ha, rfl⟩ | ⟨a, v, rfl, ha, rfl⟩ |
    ⟨a, b, v, w, rfl, ha, hw, rfl⟩ | ⟨a, b, v, w, rfl, ha, hw, rfl⟩ | ⟨a, b, v, w, rfl, -, -, rfl⟩ |
    ⟨rfl, v, rest, hs, rfl⟩ | ⟨rfl, hs, rfl⟩ | ⟨rfl, rfl⟩ | ⟨rfl, rfl⟩
  · exact .inr ⟨not_transfers_of_computesInto hi, rfl⟩
  · exact .inr ⟨by simp [Transfers], rfl⟩
  · exact .inr ⟨by simp [Transfers], rfl⟩
  · rw [awaitsInput_of_no_input hfits hs] at hb
    cases hb
  · exact .inr ⟨by simp [Transfers], rfl⟩
  · exact .inr ⟨by simp [Transfers], rfl⟩
  · exact .inl ⟨v, by simp [Transfers, ha], rfl⟩
  · exact .inl ⟨v, by simp [Transfers, ha], rfl⟩
  · by_cases hv : v = 0#15
    · exact .inr ⟨by simp [Transfers, ha, hv], if_neg fun h => valueIsTrue_iff.mp h hv⟩
    · exact .inl ⟨w, by simp [Transfers, ha, hw, hv], if_pos (valueIsTrue_iff.mpr hv)⟩
  · by_cases hv : v = 0#15
    · exact .inl ⟨w, by simp [Transfers, ha, hw, hv], if_neg fun h => valueIsTrue_iff.mp h hv⟩
    · exact .inr ⟨by simp [Transfers, ha, hv], if_pos (valueIsTrue_iff.mpr hv)⟩
  · exact .inr ⟨by simp [Transfers], rfl⟩
  · exact .inl ⟨v, by simp [Transfers, hs], rfl⟩
  · exact .inr ⟨by simp [Transfers, hs], rfl⟩
  · exact .inr ⟨by simp [Transfers], rfl⟩
  · exact .inr ⟨by simp [Transfers], rfl⟩

end

/-- Settles O59: the advanced address does not wrap, since the instruction fits. -/
theorem advanceLaw : Obligations.AdvanceLaw := by
  intro i s t h hb
  obtain htarget | ⟨hno, hpc⟩ := exec_pc_cases h hb
  · exact .inl htarget
  · obtain ⟨hfits, -⟩ := exec_next_cases h
    exact .inr ⟨hno, by rw [hpc, advanced_toNat hfits]⟩

/-! ## The faults of an instruction (R212) -/

/-- The instruction meets the one condition of its own on which it fails with legal operands, and `f` is that error: `pop`
on an empty stack, `mod` by 0, `rmem` of a cell that holds no Value (R204, R207, R208). -/
def FailsOwnCondition (i : Instr) (s : State) (f : Fault) : Prop :=
  (∃ a, i = .pop a ∧ s.stack = [] ∧ f = .stackUnderflow s.pc 3) ∨
  (∃ a b c, i = .mod a b c ∧ s.resolve c = some 0 ∧ f = .modByZero s.pc 11) ∨
  (∃ a b addr, i = .rmem a b ∧ s.resolve b = some addr ∧ 32767 < (Memory.read s.mem addr).toNat ∧
    f = .nonValueLoad s.pc 15 addr (Memory.read s.mem addr))

section
variable {i : Instr} {s : State} {f : Fault} {a b c o : Operand}

theorem isDestination_iff : o.isDestination = true ↔ ∃ d, o = .reg d := by
  cases o <;> simp [Operand.isDestination]

theorem isSource_iff (s : State) : o.isSource = true ↔ ∃ v, s.resolve o = some v := by
  rw [← resolve_isSome s o, Option.isSome_iff_exists]

/-! The three instructions that can fail with legal operands. -/

theorem exec_pop_eq_fault_of_fits (h : Fits (.pop a) s) : exec (.pop a) s = .fault f ↔
    firstOperandFault s.pc 3 (Instr.pop a).operands = some f ∨
    (Instr.pop a).isWellFormed = true ∧ s.stack = [] ∧ f = .stackUnderflow s.pc 3 := by
  have h : s.pc.toNat + 2 ≤ 32767 := h
  simp only [exec_pop, runD_eq_fault, h, Nat.not_lt.mpr h, Instr.operands, Instr.isWellFormed, isDestination_iff,
    false_and, true_and, false_or]
  cases hs : s.stack <;> simp [hs, raise, eq_comm]

theorem exec_mod_eq_fault_of_fits (h : Fits (.mod a b c) s) : exec (.mod a b c) s = .fault f ↔
    firstOperandFault s.pc 11 (Instr.mod a b c).operands = some f ∨
    (Instr.mod a b c).isWellFormed = true ∧ s.resolve c = some 0 ∧ f = .modByZero s.pc 11 := by
  have h : s.pc.toNat + 4 ≤ 32767 := h
  simp only [exec_mod, runDSS_eq_fault, h, Nat.not_lt.mpr h, Instr.operands, Instr.isWellFormed, isDestination_iff,
    isSource_iff s, Bool.and_eq_true, false_and, true_and, false_or]
  refine or_congr_right ⟨?_, ?_⟩
  · rintro ⟨d, vb, vc, rfl, hb, hc, e⟩
    split at e
    · next hz =>
      obtain rfl : vc = 0 := BitVec.eq_of_toNat_eq hz
      exact ⟨⟨⟨⟨d, rfl⟩, ⟨vb, hb⟩⟩, ⟨0, hc⟩⟩, hc, (Except.error.inj e).symm⟩
    · cases e
  · rintro ⟨⟨⟨⟨d, rfl⟩, ⟨vb, hb⟩⟩, -⟩, hc, rfl⟩
    exact ⟨d, vb, 0, rfl, hb, hc, rfl⟩

theorem exec_rmem_eq_fault_of_fits (h : Fits (.rmem a b) s) : exec (.rmem a b) s = .fault f ↔
    firstOperandFault s.pc 15 (Instr.rmem a b).operands = some f ∨
    (Instr.rmem a b).isWellFormed = true ∧ ∃ addr, s.resolve b = some addr ∧
      32767 < (Memory.read s.mem addr).toNat ∧ f = .nonValueLoad s.pc 15 addr (Memory.read s.mem addr) := by
  have h : s.pc.toNat + 3 ≤ 32767 := h
  simp only [exec_rmem, runDS_eq_fault, h, Nat.not_lt.mpr h, Instr.operands, Instr.isWellFormed, isDestination_iff,
    isSource_iff s, Bool.and_eq_true, false_and, true_and, false_or]
  refine or_congr_right ⟨?_, ?_⟩
  · rintro ⟨d, addr, rfl, hb, e⟩
    split at e
    · cases e
    · next hw => exact ⟨⟨⟨d, rfl⟩, ⟨addr, hb⟩⟩, addr, hb, Nat.lt_of_not_le hw, (Except.error.inj e).symm⟩
  · rintro ⟨⟨⟨d, rfl⟩, -⟩, addr, hb, hw, rfl⟩
    exact ⟨d, addr, rfl, hb, if_neg (Nat.not_le_of_lt hw)⟩

/-- The effect of every other instruction completes, so with legal operands there is no fault (R212). -/
theorem exec_eq_fault_of_fits (h : Fits i s) : exec i s = .fault f ↔
    firstOperandFault s.pc i.opcode i.operands = some f ∨ i.isWellFormed = true ∧ FailsOwnCondition i s f := by
  cases i with
  | pop a => simpa [FailsOwnCondition, Instr.opcode] using exec_pop_eq_fault_of_fits h
  | mod a b c => simpa [FailsOwnCondition, Instr.opcode] using exec_mod_eq_fault_of_fits h
  | rmem a b => simpa [FailsOwnCondition, Instr.opcode] using exec_rmem_eq_fault_of_fits h
  | halt | noop =>
    have h : s.pc.toNat + 1 ≤ 32767 := h
    simp only [exec_halt, exec_noop, runZ_eq_fault, h, Nat.not_lt.mpr h]
    simp [FailsOwnCondition, firstOperandFault, Instr.operands]
  | ret =>
    have h : s.pc.toNat + 1 ≤ 32767 := h
    simp only [exec_ret, runZ_eq_fault, h, Nat.not_lt.mpr h]
    cases hs : s.stack <;> simp [FailsOwnCondition, firstOperandFault, Instr.operands, hs]
  | push | jmp | call | out =>
    have h : s.pc.toNat + 2 ≤ 32767 := h
    simp only [exec_push, exec_jmp, exec_call, exec_out, runS_eq_fault, h, Nat.not_lt.mpr h]
    simp [FailsOwnCondition, Instr.opcode, Instr.operands]
  | inp =>
    have h : s.pc.toNat + 2 ≤ 32767 := h
    simp only [exec_in, runD_eq_fault, h, Nat.not_lt.mpr h]
    cases hs : s.input <;> simp [FailsOwnCondition, Instr.opcode, Instr.operands, hs]
  | jt | jf | wmem =>
    have h : s.pc.toNat + 3 ≤ 32767 := h
    simp only [exec_jt, exec_jf, exec_wmem, runSS_eq_fault, h, Nat.not_lt.mpr h]
    simp [FailsOwnCondition, Instr.opcode, Instr.operands]
  | set | not =>
    have h : s.pc.toNat + 3 ≤ 32767 := h
    simp only [exec_set, exec_not, runDS_eq_fault, h, Nat.not_lt.mpr h]
    simp [FailsOwnCondition, Instr.opcode, Instr.operands]
  | eq | gt | add | mult | and | or =>
    have h : s.pc.toNat + 4 ≤ 32767 := h
    simp only [exec_eq, exec_gt, exec_add, exec_mult, exec_and, exec_or, runDSS_eq_fault, h, Nat.not_lt.mpr h]
    simp [FailsOwnCondition, Instr.opcode, Instr.operands]

end

/-- Settles O60: the address check comes first; an instruction that fits fails an operand check or, with legal operands,
its own condition. -/
theorem faultsInPriorityOrder : Obligations.FaultsInPriorityOrder := by
  intro i s f
  rw [firstOperandFault_eq_none]
  by_cases h : Fits i s
  · simp only [h, not_true, false_and, true_and, false_or]
    exact exec_eq_fault_of_fits h
  · simp only [h, not_false_eq_true, false_and, true_and, or_false, exec_of_not_fits h, Host.Outcome.fault.injEq]
    exact eq_comm

end Sys2Proof.Machine
end

section
/-! PROOF. `set`, `push` and `pop` (41_set_push_pop.md R130 to R132): the state each completes in, the faults, and that a push
followed by a pop copies a register. -/

namespace Sys2Proof.Machine

section
variable {i : Instr} {s : State} {a b : Operand} {d : RegIdx} {v : Value}

/-- An instruction that fits and has an illegal operand word faults with the first check that fails (R116). -/
theorem exec_of_operandFault {f : Fault} (h : Fits i s) (hf : firstOperandFault s.pc i.opcode i.operands = some f) :
    exec i s = .fault f :=
  (exec_eq_fault_of_fits h).mpr (.inl hf)

theorem exec_set_of_fits (h : s.pc.toNat + 3 ≤ 32767) (hb : s.resolve b = some v) :
    exec (.set (.reg d) b) s = .next ((s.setPc (BitVec.ofNat 15 (s.pc.toNat + 3))).setReg d v) := by
  rw [exec_set]
  exact runDS_eq_next.mpr ⟨h, d, v, v, rfl, hb, rfl, rfl⟩

theorem exec_push_of_fits (h : s.pc.toNat + 2 ≤ 32767) (ha : s.resolve a = some v) :
    exec (.push a) s = .next ((s.setPc (BitVec.ofNat 15 (s.pc.toNat + 2))).push v) := by
  rw [exec_push]
  exact runS_eq_next.mpr ⟨h, v, ha, rfl⟩

theorem exec_pop_of_fits {rest : List Value} (h : s.pc.toNat + 2 ≤ 32767) (hs : s.stack = v :: rest) :
    exec (.pop (.reg d)) s =
      .next (((s.setPc (BitVec.ofNat 15 (s.pc.toNat + 2))).setStack rest).setReg d v) := by
  rw [exec_pop]
  exact runD_eq_next.mpr ⟨h, d, rfl, by simp [hs]⟩

/-- The stack is looked at after the destination check, so `pop` to a register is what underflows (R132, R204). -/
theorem exec_pop_of_empty (h : s.pc.toNat + 2 ≤ 32767) (hs : s.stack = []) :
    exec (.pop (.reg d)) s = .fault (.stackUnderflow s.pc 3) :=
  (exec_pop_eq_fault_of_fits h).mpr (.inr ⟨rfl, hs, rfl⟩)

end

/-- Settles O25: the DS format completes with register a written, and an illegal operand faults as for any instruction. -/
theorem setCopiesResolvedValue : Obligations.SetCopiesResolvedValue := by
  intro s a b h
  refine ⟨?_, fun f hf => exec_of_operandFault h hf⟩
  rintro d v rfl hb
  exact exec_set_of_fits h hb

/-- Settles O26: the S format completes with the Value pushed, and an illegal operand faults as for any instruction. -/
theorem pushPutsValueOnTop : Obligations.PushPutsValueOnTop :=
  fun _ _ h => ⟨fun _ ha => exec_push_of_fits h ha, fun _ hf => exec_of_operandFault h hf⟩

/-- Settles O27: the destination check comes first, then the stack decides between a move and an underflow. -/
theorem popMovesTopToRegister : Obligations.PopMovesTopToRegister := by
  intro s a h
  refine ⟨?_, ?_, fun f hf => exec_of_operandFault h hf⟩
  · rintro d v rest rfl hs
    exact exec_pop_of_fits h hs
  · rintro d rfl hs
    exact exec_pop_of_empty h hs

/-- Settles O28: the pushed state has register i's Value on top of the old stack, and its pc has advanced by 2 without
wrapping, so the pop takes that Value off again and advances by 2 more. -/
theorem pushThenPopCopiesRegister : Obligations.PushThenPopCopiesRegister := by
  intro s i j h
  have hfits : s.pc.toNat + 2 ≤ 32767 := by omega
  have hpc : (BitVec.ofNat 15 (s.pc.toNat + 2)).toNat = s.pc.toNat + 2 := advanced_toNat hfits
  refine ⟨_, exec_push_of_fits hfits rfl, ?_⟩
  rw [exec_pop_of_fits (by rw [push_pc, setPc_pc, hpc]; exact h) (push_stack _ _), push_pc, setPc_pc, hpc]
  rfl

end Sys2Proof.Machine
end

section
/-! PROOF. `eq` and `gt` (42_compare.md R135, R136): the rule of a format DSS instruction whose result is a function of its
sources, and the numbers the two comparisons write. -/

namespace Sys2Proof.Machine

/-- An instruction whose meaning is the DSS format with a result that cannot fail follows the rule of that format for
every relation the result satisfies (R116, R119). -/
theorem twoSourceRule_of_exec_eq {mk : Operand → Operand → Operand → Instr} {op : Word}
    {R : Value → Value → Value → Prop} (result : Value → Value → Value)
    (hexec : ∀ a b c s, exec (mk a b c) s = runDSS op a b c s fun vb vc => .ok (result vb vc))
    (hR : ∀ vb vc, R vb vc (result vb vc)) : TwoSourceRule mk op R := by
  intro s a b c hfits
  rw [hexec]
  refine ⟨?_, fun f hf => runDSS_eq_fault.mpr (.inr (.inl ⟨hfits, hf⟩))⟩
  intro d vb vc ha hb hc
  exact ⟨result vb vc, hR vb vc, runDSS_eq_next.mpr ⟨hfits, d, vb, vc, _, ha, hb, hc, rfl, rfl⟩⟩

section
variable {vb vc : Value}

theorem equalValue_of_eq (h : vb = vc) : equalValue vb vc = 1 := by
  simp [equalValue, truthValue, h]

theorem equalValue_of_ne (h : vb ≠ vc) : equalValue vb vc = 0 := by
  simp [equalValue, truthValue, BitVec.toNat_inj, h]

theorem greaterValue_of_lt (h : vc.toNat < vb.toNat) : greaterValue vb vc = 1 := by
  simp [greaterValue, truthValue, h]

theorem greaterValue_of_le (h : vb.toNat ≤ vc.toNat) : greaterValue vb vc = 0 := by
  simp [greaterValue, truthValue, Nat.not_lt.mpr h]

end

/-- Settles O29: `eq` has the DSS format, and its result is fixed by whether the two Values are the same. -/
theorem eqWritesOneIfEqual : Obligations.EqWritesOneIfEqual :=
  twoSourceRule_of_exec_eq equalValue exec_eq fun _ _ =>
    ⟨fun h => congrArg BitVec.toNat (equalValue_of_eq h), fun h => congrArg BitVec.toNat (equalValue_of_ne h)⟩

/-- Settles O30: `gt` has the DSS format, and its result is fixed by the strict order of the two numbers. -/
theorem gtWritesOneIfGreaterUnsigned : Obligations.GtWritesOneIfGreaterUnsigned :=
  twoSourceRule_of_exec_eq greaterValue exec_gt fun _ _ =>
    ⟨fun h => congrArg BitVec.toNat (greaterValue_of_lt h), fun h => congrArg BitVec.toNat (greaterValue_of_le h)⟩

end Sys2Proof.Machine
end

section
/-! PROOF. `jmp`, `jt` and `jf` (43_jumps.md R140 to R142): the state each completes in, as one equation per instruction in
which the condition alone chooses between the target and the advanced pc, and the faults. -/

namespace Sys2Proof.Machine

section
variable {s : State} {a b : Operand} {v target : Value}

theorem valueIsTrue_iff_toNat : valueIsTrue v = true ↔ v.toNat ≠ 0 :=
  decide_eq_true_iff

theorem exec_jmp_of_fits (h : s.pc.toNat + 2 ≤ 32767) (ha : s.resolve a = some target) :
    exec (.jmp a) s = .next (s.setPc target) := by
  rw [exec_jmp]
  exact runS_eq_next.mpr ⟨h, target, ha, rfl⟩

theorem exec_jt_of_fits (h : s.pc.toNat + 3 ≤ 32767) (ha : s.resolve a = some v) (hb : s.resolve b = some target) :
    exec (.jt a b) s =
      .next (if v.toNat ≠ 0 then s.setPc target else s.setPc (BitVec.ofNat 15 (s.pc.toNat + 3))) := by
  rw [exec_jt]
  refine runSS_eq_next.mpr ⟨h, v, target, ha, hb, ?_⟩
  simp only [valueIsTrue_iff_toNat]
  rfl

/-- The branches of `jt` exchanged (R142). -/
theorem exec_jf_of_fits (h : s.pc.toNat + 3 ≤ 32767) (ha : s.resolve a = some v) (hb : s.resolve b = some target) :
    exec (.jf a b) s =
      .next (if v.toNat ≠ 0 then s.setPc (BitVec.ofNat 15 (s.pc.toNat + 3)) else s.setPc target) := by
  rw [exec_jf]
  refine runSS_eq_next.mpr ⟨h, v, target, ha, hb, ?_⟩
  simp only [valueIsTrue_iff_toNat]
  rfl

end

/-- Settles O31: the S format completes with the pc at the target, and an illegal operand faults as for any instruction. -/
theorem jmpSetsPc : Obligations.JmpSetsPc :=
  fun _ _ h => ⟨fun _ ha => exec_jmp_of_fits h ha, fun _ hf => exec_of_operandFault h hf⟩

/-- Settles O32: both operands are resolved before the condition is looked at, so the fault does not depend on it. -/
theorem jtJumpsIfNotZero : Obligations.JtJumpsIfNotZero := by
  intro s a b h
  refine ⟨?_, ?_, fun f hf => exec_of_operandFault h hf⟩
  · intro v target ha hb hv
    rw [exec_jt_of_fits h ha hb, if_pos hv]
    rfl
  · intro v target ha hb hv
    rw [exec_jt_of_fits h ha hb, if_neg (not_not_intro hv)]
    rfl

/-- Settles O33: as for `jt`, with the condition choosing the other branch. -/
theorem jfJumpsIfZero : Obligations.JfJumpsIfZero := by
  intro s a b h
  refine ⟨?_, ?_, fun f hf => exec_of_operandFault h hf⟩
  · intro v target ha hb hv
    rw [exec_jf_of_fits h ha hb, if_neg (not_not_intro hv)]
    rfl
  · intro v target ha hb hv
    rw [exec_jf_of_fits h ha hb, if_pos hv]
    rfl

end Sys2Proof.Machine
end

section
/-! PROOF. `add`, `mult`, `mod`, `and`, `or` and `not` (44_arithmetic_logic.md R150 to R156): the numbers and bits of the six
results, the instructions that write them, and the two laws that follow. -/

namespace Sys2Proof.Machine

section
variable {op : Word} {s : State} {a b c : Operand} {d : RegIdx} {v vb vc : Value}

theorem sumValue_toNat (vb vc : Value) : (sumValue vb vc).toNat = (vb.toNat + vc.toNat) % 32768 := by
  rw [sumValue, BitVec.toNat_ofNat, Nat.mod_mod]

theorem productValue_toNat (vb vc : Value) : (productValue vb vc).toNat = (vb.toNat * vc.toNat) % 32768 := by
  rw [productValue, BitVec.toNat_ofNat, Nat.mod_mod]

theorem sumValue_comm (vb vc : Value) : sumValue vb vc = sumValue vc vb := by
  rw [sumValue, Nat.add_comm, sumValue]

theorem productValue_comm (vb vc : Value) : productValue vb vc = productValue vc vb := by
  rw [productValue, Nat.mul_comm, productValue]

/-- A remainder is no larger than the dividend, so it is a Value as it stands (R150 (e)). -/
theorem remainderValue_toNat (vb vc : Value) : (remainderValue vb vc).toNat = vb.toNat % vc.toNat := by
  rw [remainderValue, BitVec.toNat_ofNat]
  exact Nat.mod_eq_of_lt ((Nat.mod_le _ _).trans_lt vb.isLt)

/-- Subtracting from 32767 never borrows, so it is the complement of every bit (R156). -/
theorem complementValue_eq_not (v : Value) : complementValue v = ~~~v := by
  apply BitVec.eq_of_toNat_eq
  rw [complementValue, BitVec.toNat_ofNat, BitVec.toNat_not]
  exact Nat.mod_eq_of_lt (by omega)

theorem complementValue_toNat (v : Value) : (complementValue v).toNat = 32767 - v.toNat := by
  rw [complementValue_eq_not, BitVec.toNat_not]

theorem complementValue_complementValue (v : Value) : complementValue (complementValue v) = v := by
  rw [complementValue_eq_not, complementValue_eq_not, BitVec.not_not]

theorem exec_mod_of_fits (h : s.pc.toNat + 4 ≤ 32767) (hb : s.resolve b = some vb) (hc : s.resolve c = some vc)
    (hvc : vc.toNat ≠ 0) : exec (.mod (.reg d) b c) s =
      .next ((s.setPc (BitVec.ofNat 15 (s.pc.toNat + 4))).setReg d (remainderValue vb vc)) := by
  rw [exec_mod]
  exact runDSS_eq_next.mpr ⟨h, d, vb, vc, _, rfl, hb, hc, if_neg hvc, rfl⟩

/-- The operands are checked first, so `mod` of legal operands is what divides by 0 (R153, R207). -/
theorem exec_mod_of_zero (h : s.pc.toNat + 4 ≤ 32767) (hb : s.resolve b = some vb) (hc : s.resolve c = some vc)
    (hvc : vc.toNat = 0) : exec (.mod (.reg d) b c) s = .fault (.modByZero s.pc 11) := by
  rw [exec_mod]
  exact runDSS_eq_fault.mpr (.inr (.inr ⟨h, d, vb, vc, rfl, hb, hc, if_pos hvc⟩))

theorem exec_not_of_fits (h : s.pc.toNat + 3 ≤ 32767) (hb : s.resolve b = some v) : exec (.not (.reg d) b) s =
    .next ((s.setPc (BitVec.ofNat 15 (s.pc.toNat + 3))).setReg d (complementValue v)) := by
  rw [exec_not]
  exact runDS_eq_next.mpr ⟨h, d, v, _, rfl, hb, rfl, rfl⟩

/-- With both sources legal neither check fails, so the order in which they are made cannot be seen (R116). -/
theorem runDSS_comm {result : Value → Value → Except Fault Value} (hcomm : ∀ x y, result x y = result y x)
    (hb : b.isSource = true) (hc : c.isSource = true) : runDSS op a b c s result = runDSS op a c b s result := by
  obtain ⟨vb, hb⟩ := (isSource_iff s).mp hb
  obtain ⟨vc, hc⟩ := (isSource_iff s).mp hc
  simp only [runDSS, checkSource_of_some hb, checkSource_of_some hc, ok_bind, hcomm vb vc]

end

/-- Settles O34: `add` has the DSS format, and its result is the sum cut to 15 bits. -/
theorem addWritesSumModulo32768 : Obligations.AddWritesSumModulo32768 :=
  twoSourceRule_of_exec_eq sumValue exec_add sumValue_toNat

/-- Settles O35: `mult` has the DSS format, and its result is the product cut to 15 bits. -/
theorem multWritesProductModulo32768 : Obligations.MultWritesProductModulo32768 :=
  twoSourceRule_of_exec_eq productValue exec_mult productValue_toNat

/-- Settles O36: after the operand checks the divisor decides between the remainder and ModByZero. -/
theorem modWritesRemainder : Obligations.ModWritesRemainder := by
  intro s a b c h
  refine ⟨?_, ?_, fun f hf => exec_of_operandFault h hf⟩
  · rintro d vb vc rfl hb hc hvc
    exact ⟨remainderValue vb vc, remainderValue_toNat vb vc, exec_mod_of_fits h hb hc hvc⟩
  · rintro d vb vc rfl hb hc hvc
    exact exec_mod_of_zero h hb hc hvc

/-- Settles O37: `and` has the DSS format, and its result is the and of the two bit vectors. -/
theorem andWritesBitwiseAnd : Obligations.AndWritesBitwiseAnd :=
  twoSourceRule_of_exec_eq andValue exec_and fun _ _ _ _ => BitVec.getLsbD_and

/-- Settles O38: `or` has the DSS format, and its result is the or of the two bit vectors. -/
theorem orWritesBitwiseOr : Obligations.OrWritesBitwiseOr :=
  twoSourceRule_of_exec_eq orValue exec_or fun _ _ _ _ => BitVec.getLsbD_or

/-- Settles O39: the subtraction and the bitwise complement are the same Value. -/
theorem notWritesComplement : Obligations.NotWritesComplement := by
  intro s a b h
  refine ⟨?_, fun f hf => exec_of_operandFault h hf⟩
  rintro d vb rfl hb
  refine ⟨complementValue vb, complementValue_toNat vb, ?_, exec_not_of_fits h hb⟩
  intro k hk
  rw [complementValue_eq_not, BitVec.getLsbD_not, decide_eq_true hk, Bool.true_and]

/-- Settles O40: the first `not` leaves the complement in the register and the pc, which has not wrapped, at an instruction
that fits; the second complements that Value again. -/
theorem notTwiceRestores : Obligations.NotTwiceRestores := by
  intro s d b v h hb
  have hfits : s.pc.toNat + 3 ≤ 32767 := by omega
  have hpc : (BitVec.ofNat 15 (s.pc.toNat + 3)).toNat = s.pc.toNat + 3 := advanced_toNat hfits
  refine ⟨_, _, exec_not_of_fits hfits hb, exec_not_of_fits ?_ (congrArg some (reg_setReg_same _ _ _)), ?_⟩
  · rw [setReg_pc, setPc_pc, hpc]
    exact h
  · rw [complementValue_complementValue]
    exact reg_setReg_same _ _ _

/-- Settles O41: the sum and the product are symmetric, and legal sources pass their checks in either order. -/
theorem addAndMultCommute : Obligations.AddAndMultCommute := by
  intro s a b c hb hc
  simp only [exec_add, exec_mult]
  exact ⟨runDSS_comm (fun x y => congrArg Except.ok (sumValue_comm x y)) hb hc,
    runDSS_comm (fun x y => congrArg Except.ok (productValue_comm x y)) hb hc⟩

end Sys2Proof.Machine
end

section
/-! PROOF. `rmem` and `wmem` (45_memory_access.md R160, R161): the state each completes in, the load of a word that is no
Value, and the faults. -/

namespace Sys2Proof.Machine

section
variable {s : State} {a b : Operand} {d : RegIdx} {addr v : Value}

/-- A word of at most 32767 has bit 15 clear, so cutting it to 15 bits keeps its number (R160). -/
theorem toNat_ofNat_toNat_of_le {w : Word} (hw : w.toNat ≤ 32767) : (BitVec.ofNat 15 w.toNat).toNat = w.toNat := by
  rw [BitVec.toNat_ofNat]
  exact Nat.mod_eq_of_lt (Nat.lt_succ_of_le hw)

theorem exec_rmem_of_fits (h : s.pc.toNat + 3 ≤ 32767) (hb : s.resolve b = some addr)
    (hw : (Memory.read s.mem addr).toNat ≤ 32767) : exec (.rmem (.reg d) b) s =
      .next ((s.setPc (BitVec.ofNat 15 (s.pc.toNat + 3))).setReg d
        (BitVec.ofNat 15 (Memory.read s.mem addr).toNat)) := by
  rw [exec_rmem]
  exact runDS_eq_next.mpr ⟨h, d, addr, _, rfl, hb, if_pos hw, rfl⟩

/-- The operands are checked first, so `rmem` to a register from a legal address is what loads no Value (R160, R208). -/
theorem exec_rmem_of_nonValue (h : s.pc.toNat + 3 ≤ 32767) (hb : s.resolve b = some addr)
    (hw : 32767 < (Memory.read s.mem addr).toNat) : exec (.rmem (.reg d) b) s =
      .fault (.nonValueLoad s.pc 15 addr (Memory.read s.mem addr)) := by
  rw [exec_rmem]
  exact runDS_eq_fault.mpr (.inr (.inr ⟨h, d, addr, rfl, hb, if_neg (Nat.not_le_of_lt hw)⟩))

theorem exec_wmem_of_fits (h : s.pc.toNat + 3 ≤ 32767) (ha : s.resolve a = some addr) (hb : s.resolve b = some v) :
    exec (.wmem a b) s =
      .next ((s.setPc (BitVec.ofNat 15 (s.pc.toNat + 3))).store addr (valueWord v)) := by
  rw [exec_wmem]
  exact runSS_eq_next.mpr ⟨h, addr, v, ha, hb, rfl⟩

end

/-- Settles O42: after the operand checks the word in the cell decides between the load and NonValueLoad. -/
theorem rmemReadsCell : Obligations.RmemReadsCell := by
  intro s a b h
  refine ⟨?_, ?_, fun f hf => exec_of_operandFault h hf⟩
  · rintro d addr rfl hb hw
    exact ⟨_, toNat_ofNat_toNat_of_le hw, exec_rmem_of_fits h hb hw⟩
  · rintro d addr rfl hb hw
    exact exec_rmem_of_nonValue h hb hw

/-- Settles O43: the memory after the store is one write of the Value's word, so the laws of a write say what each cell
reads. -/
theorem wmemStoresValue : Obligations.WmemStoresValue := by
  intro s a b h
  refine ⟨?_, fun f hf => exec_of_operandFault h hf⟩
  intro addr v ha hb
  refine ⟨Memory.write s.mem addr (valueWord v), ?_, fun x hx => ?_, ?_, ?_⟩
  · rw [read_write_same, valueWord_toNat]
  · exact read_write_other s.mem (valueWord v) hx
  · exact write_wf addr (valueWord v)
  · exact exec_wmem_of_fits h ha hb

end Sys2Proof.Machine
end

section
/-! PROOF. `call` and `ret` (46_call_return.md R165, R166): the state each completes in, with a stack and without for `ret`,
the fault of `call`, and that a `ret` at the target undoes the `call`. -/

namespace Sys2Proof.Machine

section
variable {s : State} {a : Operand} {v target : Value}

theorem exec_call_of_fits (h : s.pc.toNat + 2 ≤ 32767) (ha : s.resolve a = some target) :
    exec (.call a) s =
      .next ((s.push (BitVec.ofNat 15 (s.pc.toNat + 2))).setPc target) := by
  rw [exec_call]
  exact runS_eq_next.mpr ⟨h, target, ha, rfl⟩

theorem exec_ret_of_fits {rest : List Value} (h : s.pc.toNat + 1 ≤ 32767) (hs : s.stack = v :: rest) :
    exec .ret s = .next ((s.setStack rest).setPc v) := by
  rw [exec_ret]
  refine runZ_eq_next.mpr ⟨h, ?_⟩
  simp only [setPc_stack, hs]
  rfl

/-- The pc has advanced before the stack is looked at, so a halting `ret` leaves it behind the instruction (R118, R166). -/
theorem exec_ret_of_empty (h : s.pc.toNat + 1 ≤ 32767) (hs : s.stack = []) :
    exec .ret s = .next ((s.setPc (BitVec.ofNat 15 (s.pc.toNat + 1))).setStatus .halted) := by
  rw [exec_ret]
  refine runZ_eq_next.mpr ⟨h, ?_⟩
  simp only [setPc_stack, hs]

end

/-- Settles O45: the S format completes with the advanced pc pushed and the pc at the target, and an illegal operand faults
as for any instruction. -/
theorem callPushesReturnAddress : Obligations.CallPushesReturnAddress :=
  fun _ _ h => ⟨fun _ ha => exec_call_of_fits h ha, fun _ hf => exec_of_operandFault h hf⟩

/-- Settles O46: `ret` has no operand to check, so the stack alone decides between a return and a halt. -/
theorem retPopsOrHalts : Obligations.RetPopsOrHalts :=
  fun _ h => ⟨fun _ _ hs => exec_ret_of_fits h hs, fun hs => exec_ret_of_empty h hs⟩

/-- Settles O47: the called state has the advanced pc on top of the old stack, so the `ret` takes it off again and goes
there. -/
theorem callThenRetReturns : Obligations.CallThenRetReturns := by
  intro s a target h ha htarget
  exact ⟨_, exec_call_of_fits h ha, rfl, exec_ret_of_fits htarget (push_stack _ _)⟩

end Sys2Proof.Machine
end

section
/-! PROOF. The state a loaded image starts in (20_memory.md R55, R66, R69; 70_reset_and_hazards.md R240), and the steps and
instructions whose effect is an end or no effect at all (48_halt_noop.md R180, R181; 60_exceptions.md R203, section 6). -/

namespace Sys2Proof.Machine

/-! ## The boot sequence -/

/-- An image that loads is read as words, of which there are not more than cells, and starts from the reset state. -/
theorem boot_eq_ok {image : List Byte} {hooks : List (Addr × Hook)} {input : List Value} {s : State}
    (h : boot image hooks input = .ok s) :
    ∃ ws, imageWords image = some ws ∧ ws.length ≤ 32768 ∧
      s = { State.reset with mem := cellsFrom 0 ws, hooks := hooks, input := input } := by
  cases hws : imageWords image with
  | none => simp [boot, load, hws] at h
  | some ws =>
    rcases Nat.lt_or_ge 32768 ws.length with hlarge | hsize
    · rw [boot_of_too_many_words hooks input hws hlarge] at h
      cases h
    · rw [boot_of_words hooks input hws hsize] at h
      exact ⟨ws, rfl, hsize, (Except.ok.inj h).symm⟩

theorem length_of_imageWords {image : List Byte} {ws : List Word} (h : imageWords image = some ws) :
    2 * ws.length = image.length := by
  rcases Nat.mod_two_eq_zero_or_one image.length with heven | hodd
  · obtain ⟨ws', hws, hlen⟩ := imageWords_of_even image heven
    obtain rfl : ws = ws' := Option.some.inj (h.symm.trans hws)
    exact hlen
  · rw [imageWords_of_odd image hodd] at h
    cases h

/-- Word `k` of an image is byte `2k` plus 256 times byte `2k + 1` (R55, R66). -/
theorem getElem?_of_imageWords {image : List Byte} {ws : List Word} (h : imageWords image = some ws) (k : Nat)
    (hk : 2 * k + 1 < image.length) :
    ∃ w, ws[k]? = some w ∧ w.toNat = image[2 * k].toNat + 256 * image[2 * k + 1].toNat := by
  match image, k with
  | [], _ => simp at hk
  | [_], _ => simp at hk
  | lo :: hi :: rest, k =>
    obtain ⟨ws', hrest, rfl⟩ := Option.map_eq_some_iff.mp h
    cases k with
    | zero => exact ⟨_, rfl, by simp; omega⟩
    | succ k => simpa [Nat.mul_succ] using getElem?_of_imageWords hrest k (by simp at hk; omega)

/-- A cell of a loaded memory holds the image's word, or the open fill where there is none (R66, R69). -/
theorem read_cellsFrom_zero (ws : List Word) {k : Nat} (hk : k < 32768) :
    Memory.read (cellsFrom 0 ws) (BitVec.ofNat 15 k) = ws[k]?.getD (Config.imageFill (BitVec.ofNat 15 k)) := by
  have hcell : (BitVec.ofNat 15 k).toNat = k := by rw [BitVec.toNat_ofNat]; exact Nat.mod_eq_of_lt hk
  rw [Memory.read, lookup_cellsFrom, hcell, if_pos (Nat.zero_le k), Nat.sub_zero]
  cases ws[k]? <;> rfl

/-- Settles O10: the state is the reset state with the image's words in memory, and `k` lies below their number exactly if
both its bytes lie in the image. -/
theorem bootState : Obligations.BootState := by
  intro image hooks input s h
  obtain ⟨ws, hws, hsize, rfl⟩ := boot_eq_ok h
  have hlen := length_of_imageWords hws
  refine ⟨fun r => by simp [State.reset], rfl, rfl, rfl, rfl, rfl, rfl, fun k hk => ?_, fun k hk hcell => ?_⟩
  · obtain ⟨w, hw, hbytes⟩ := getElem?_of_imageWords hws k hk
    rw [read_cellsFrom_zero ws (by omega), hw]
    exact hbytes
  · rw [read_cellsFrom_zero ws hcell, List.getElem?_eq_none (by omega)]
    rfl

/-! ## Ends and no effect -/

/-- Settles O16: an unknown opcode fails the fetch, before any operand cell is read. -/
theorem unknownOpcodeFaults : Obligations.UnknownOpcodeFaults :=
  fun _ hs hk h => step_of_unknown hs hk h

/-- Settles O20, by induction on the length of the run. -/
theorem haltedMachineStays : Obligations.HaltedMachineStays := by
  intro n s hs
  induction n with
  | zero => exact runsTo_zero.mpr rfl
  | succ n ih => exact runsTo_succ.mpr ⟨s, step_of_halted hs, ih⟩

/-- Settles O52. -/
theorem haltSetsHalted : Obligations.HaltSetsHalted :=
  fun _ h => exec_halt_of_fits h

/-- Settles O53. -/
theorem noopOnlyAdvances : Obligations.NoopOnlyAdvances :=
  fun _ h => exec_noop_of_fits h

end Sys2Proof.Machine
end

section
/-! PROOF. What a hook does not see (60_exceptions.md R219, R221): it neither reads nor writes the streams and the hook
table, so it does the same with others in their place; and the jump that a hook splices in before the fetch. -/

namespace Sys2Proof.Machine

/-- The state with other streams and another hook table: what lies outside a hook's reach (R219). -/
def State.setStreams (s : State) (output input : List Value) (hooks : List (Addr × Hook)) : State :=
  { s with output := output, input := input, hooks := hooks }

section
variable (s : State) (out inp : List Value) (hs : List (Addr × Hook))

theorem eval_setStreams (x : HookExpr) : x.eval (s.setStreams out inp hs) = x.eval s := by
  induction x with
  | lit | reg | pc => rfl
  | cell a ih => simp only [HookExpr.eval, ih]; rfl
  | add x y ihx ihy => simp only [HookExpr.eval, ihx, ihy]
  | same x y ihx ihy => simp only [HookExpr.eval, ihx, ihy]

theorem run_setStreams (act : HookAct) : act.run (s.setStreams out inp hs) = (act.run s).setStreams out inp hs := by
  induction act with
  | setReg | setCell | setStack | setPc => simp only [HookAct.run, eval_setStreams]; rfl
  | setStatus => rfl
  | onlyIf x act ih =>
    simp only [HookAct.run, eval_setStreams, ih]
    split <;> rfl

theorem applyEffect_setStreams (e : Config.HookEffect) :
    applyEffect e (s.setStreams out inp hs) = (applyEffect e s).setStreams out inp hs := by
  have hstores := List.foldl_hom (l := e.cellWrites) (init := s) (fun u => u.setStreams out inp hs)
    (g₁ := fun u c => u.store c.1 c.2) (g₂ := fun u c => u.store c.1 c.2) (fun _ _ => rfl)
  simp only [applyEffect, hstores]
  rfl

/-- A hook commutes with a change of the streams and the hook table. -/
theorem apply_setStreams (h : Hook) : h.apply (s.setStreams out inp hs) = (h.apply s).setStreams out inp hs := by
  cases h with
  | script acts =>
    exact List.foldl_hom (fun u => u.setStreams out inp hs) fun u act => run_setStreams u out inp hs act
  | callback n => exact applyEffect_setStreams s out inp hs _

end

section
variable (h : Hook) (s : State) (inp : List Value)

/-- A hook commutes with setting the streams and the table to what they are, so it leaves them so. -/
theorem apply_sameStreams : SameStreams s (h.apply s) := by
  have e : h.apply s = (h.apply s).setStreams s.output s.input s.hooks := apply_setStreams s _ _ _ h
  rw [e]
  exact ⟨rfl, rfl, rfl⟩

/-- A hook is the hook phase of a table in which it is the entry at pc, so it keeps what every hook phase keeps. -/
theorem apply_inv (hs : s.Inv) : (h.apply s).Inv := by
  have e : hookPhase (s.setStreams s.output s.input [(s.pc, h)]) =
      (h.apply s).setStreams s.output s.input [(s.pc, h)] := by
    rw [← apply_setStreams]
    exact hookPhase_of_some (if_pos rfl)
  have hkept : (hookPhase (s.setStreams s.output s.input [(s.pc, h)])).Inv := hookPhase_inv _ hs
  rwa [e] at hkept

theorem apply_setInput : h.apply (s.setInput inp) = (h.apply s).setInput inp := by
  obtain ⟨hout, -, hhooks⟩ := apply_sameStreams h s
  calc h.apply (s.setInput inp)
    _ = (h.apply s).setStreams s.output inp s.hooks := apply_setStreams s _ _ _ h
    _ = (h.apply s).setInput inp := by rw [← hout, ← hhooks]; rfl

end

section
variable (s : State)

theorem hookPhase_setInput (inp : List Value) : hookPhase (s.setInput inp) = (hookPhase s).setInput inp := by
  cases hk : hookAt s.hooks s.pc with
  | none =>
    rw [hookPhase_of_none hk]
    exact hookPhase_of_none hk
  | some h =>
    rw [hookPhase_of_some hk, ← apply_setInput]
    exact hookPhase_of_some hk

theorem hookPhase_input : (hookPhase s).input = s.input := by
  cases hk : hookAt s.hooks s.pc with
  | none => rw [hookPhase_of_none hk]
  | some h =>
    obtain ⟨-, hin, -⟩ := apply_sameStreams h s
    rw [hookPhase_of_some hk, hin]

end

/-- Settles O22. -/
theorem hookTouchesOnlyMachineState : Obligations.HookTouchesOnlyMachineState :=
  fun h s => ⟨apply_sameStreams h s, apply_inv h s⟩

/-- A read after a write: of the cell written to, or of another (R53). -/
theorem read_write (m : Memory) (a b : Addr) (w : Word) :
    Memory.read (Memory.write m a w) b = if b = a then w else Memory.read m b := by
  split_ifs with h
  · rw [h, read_write_same]
  · exact read_write_other m w h

/-- Settles O24: the hook leaves the words of `jmp 20` at pc, and the fetch reads them there. -/
theorem hookSplicesJump : Obligations.HookSplicesJump := by
  intro s w hs hpc hk
  have hu : hookPhase s = ((s.store 10 6).store 11 20).store 12 w := hookPhase_of_some (by rwa [hpc])
  have hread (a : Addr) : Memory.read (hookPhase s).mem a =
      if a = 10 then 6 else if a = 11 then 20 else if a = 12 then w else Memory.read s.mem a := by
    simp only [hu, store_mem, read_write]
    split_ifs with h12 h11 h10 <;> simp_all
  have hupc : (hookPhase s).pc = 10 := by rw [hu]; exact hpc
  have hustatus : (hookPhase s).status = .running := by rw [hu]; exact hs
  have hfetch : fetch (hookPhase s) = .ok (.jmp (.lit 20)) := by
    refine fetch_of_wordsAt rfl ?_
    rw [hupc]
    intro k hlt
    match k, hlt with
    | 0, _ => exact ⟨by decide, hread 10⟩
    | 1, _ => exact ⟨by decide, hread 11⟩
  have hstep : step s = .next ((hookPhase s).setPc 20) := by
    rw [step_of_fetch hs hustatus hfetch rfl]
    exact exec_jmp_of_fits (by rw [hupc]; decide) rfl
  refine ⟨_, hstep, rfl, hustatus, ?_, ?_, ?_, hread⟩ <;> rw [hu]
  · rfl
  · rfl
  · exact ⟨rfl, rfl, rfl⟩

end Sys2Proof.Machine
end

section
/-! PROOF. `out` and `in` (47_io.md R170 to R174): the state each completes in, the faults, and the step of an `in` that
finds no character: it keeps nothing, and after an arrival it is taken again with the hook phase it had. -/

namespace Sys2Proof.Machine

section
variable {s : State} {a : Operand} {d : RegIdx} {v : Value} {rest : List Value}

theorem exec_out_of_fits (h : s.pc.toNat + 2 ≤ 32767) (ha : s.resolve a = some v) :
    exec (.out a) s = .next ((s.setPc (BitVec.ofNat 15 (s.pc.toNat + 2))).emit v) := by
  rw [exec_out]
  exact runS_eq_next.mpr ⟨h, v, ha, rfl⟩

theorem exec_in_of_fits (h : s.pc.toNat + 2 ≤ 32767) (hin : s.input = v :: rest) :
    exec (.inp (.reg d)) s = .next (((s.setPc (BitVec.ofNat 15 (s.pc.toNat + 2))).setInput rest).setReg d v) := by
  rw [exec_in]
  exact runD_eq_next.mpr ⟨h, d, rfl, by simp [hin]⟩

theorem awaitsInput_of_input (i : Instr) (hin : s.input = v :: rest) : awaitsInput i s = false := by
  unfold awaitsInput
  split
  · simp [hin]
  · rfl

theorem fetch_setInput (s : State) (inp : List Value) : fetch (s.setInput inp) = fetch s := rfl

/-- Where nothing waits, what arrives is the whole input (log 8). -/
theorem deliver_of_no_input (hin : s.input = []) (vs : List Value) : s.deliver vs = s.setInput vs := by
  simp [State.deliver, State.setInput, hin]

end

/-- Settles O48: the S format completes with the Value emitted, and an illegal operand faults as for any instruction. -/
theorem outAppendsValue : Obligations.OutAppendsValue :=
  fun _ _ h => ⟨fun _ ha => exec_out_of_fits h ha, fun _ hf => exec_of_operandFault h hf⟩

/-- Settles O49: the destination check comes first, then the input decides between a move and a wait. -/
theorem inTakesNextCharacter : Obligations.InTakesNextCharacter := by
  intro s a h
  refine ⟨?_, ?_, fun f hf => exec_of_operandFault h hf⟩
  · rintro d v rest rfl hin
    exact exec_in_of_fits h hin
  · rintro d rfl hin
    exact awaitsInput_of_no_input h hin

/-- Settles O50: no hook can supply a character, so the fetched `in` waits. -/
theorem blockedStepChangesNothing : Obligations.BlockedStepChangesNothing := by
  intro s d hs hu hf hfits hin
  exact step_of_blocked hs hu hf (awaitsInput_of_no_input hfits ((hookPhase_input s).trans hin))

/-- Settles O51: no hook sees what has arrived, so the hook phase and the fetch are those of the Blocked step, and the `in`
now finds a character. -/
theorem blockedStepCompletesOnArrival : Obligations.BlockedStepCompletesOnArrival := by
  intro s d v rest hs hu hf hfits hin
  have hstep : step (s.setInput (v :: rest)) = exec (.inp (.reg d)) ((hookPhase s).setInput (v :: rest)) := by
    rw [← hookPhase_setInput]
    refine step_of_fetch hs ?_ ?_ ?_ <;> rw [hookPhase_setInput]
    · exact hu
    · rw [fetch_setInput, hf]
    · exact awaitsInput_of_input _ rfl
  rw [deliver_of_no_input hin, hstep]
  exact exec_in_of_fits hfits rfl

end Sys2Proof.Machine
end
